-- ==== Sys2Proof/Word.lean ====
section
/-! DEFINITION. The value types of compute_module. A machine word is "an unsigned natural in `[0, modulus)`"
(10_state.md R14): a `Nat`, since the width `W` is a parameter of the machine; every write of a register reduces
what it writes (`Machine.toWord`), and the bound is an invariant of the state (10_state.md R28; `Machine.StateInv`). -/

namespace Sys2Proof

/-- A memory cell, an opcode or an operand byte: 8 bits whatever `W` is (00_scope.md R9). -/
abbrev Byte := BitVec 8

end Sys2Proof
end

