-- ==== Sys2Proof/Syntax.lean ====
section
/-! DEFINITION. The instructions of compute_module: one constructor per row of spec/opcode_table.json
(30_encoding.md R59), and their names and operand kinds. -/

namespace Sys2Proof

/-- The 20 instructions (30_encoding.md R59). A format I instruction carries its operand byte; registers are
implied by the opcode (30_encoding.md R58). -/
inductive Instr where
  /-- no effect (R76) -/
  | nop
  /-- exchange A and B (R77) -/
  | swap
  /-- A plus B (R78) -/
  | add
  /-- A minus B (R79) -/
  | sub
  /-- push A onto the output queue (R85) -/
  | write
  /-- pop the input queue into A (R86) -/
  | read
  /-- halt (R88) -/
  | halt
  /-- load A from the address in B (R94) -/
  | loadi
  /-- store A to the address in B (R95) -/
  | savei
  /-- load A from an address (R96) -/
  | load (addr : Byte)
  /-- store A to an address (R97) -/
  | save (addr : Byte)
  /-- jump (R89) -/
  | jump (addr : Byte)
  /-- jump if A is zero (R90) -/
  | jumpz (addr : Byte)
  /-- jump if A is not zero (R91) -/
  | jumpnz (addr : Byte)
  /-- jump if the overflow flag is set (R92) -/
  | jumpo (addr : Byte)
  /-- A plus a literal (R80) -/
  | addl (imm : Byte)
  /-- A minus a literal (R81) -/
  | subl (imm : Byte)
  /-- B plus a literal (R82) -/
  | addlb (imm : Byte)
  /-- a literal into A (R83) -/
  | set (imm : Byte)
  /-- a literal into B (R84) -/
  | setb (imm : Byte)
  deriving DecidableEq, Repr

/-- The 20 mnemonics of the InstructionTable (30_encoding.md R59), "shared by both the CPU and the
assembler" (R60). -/
inductive Mnemonic where
  | nop | swap | add | sub | write | read | halt | loadi | savei
  | load | save | jump | jumpz | jumpnz | jumpo
  | addl | subl | addlb | set | setb
  deriving DecidableEq, Repr

/-- The operand column of the InstructionTable (30_encoding.md R57, R59). -/
inductive OperandKind where
  /-- no operand (format N) -/
  | none
  /-- `addr8`, an absolute address -/
  | address
  /-- `imm8`, a literal -/
  | literal
  deriving DecidableEq, Repr

/-- The mnemonic of an instruction. -/
def Instr.mnemonic : Instr → Mnemonic
  | .nop => .nop
  | .swap => .swap
  | .add => .add
  | .sub => .sub
  | .write => .write
  | .read => .read
  | .halt => .halt
  | .loadi => .loadi
  | .savei => .savei
  | .load _ => .load
  | .save _ => .save
  | .jump _ => .jump
  | .jumpz _ => .jumpz
  | .jumpnz _ => .jumpnz
  | .jumpo _ => .jumpo
  | .addl _ => .addl
  | .subl _ => .subl
  | .addlb _ => .addlb
  | .set _ => .set
  | .setb _ => .setb

end Sys2Proof
end

