-- ==== Sys2Proof/Decode.lean ====
section
/-! DEFINITION. The InstructionTable, the decoder and the encoder (30_encoding.md). -/

namespace Sys2Proof

/-- One row of the InstructionTable (30_encoding.md R59). -/
structure TableRow where
  opcode : Byte
  mnemonic : Mnemonic
  operand : OperandKind
  deriving DecidableEq, Repr

/-- The format N rows of the InstructionTable: opcodes with bit 7 clear (30_encoding.md R55, R59). -/
def formatNRows : List TableRow :=
  [⟨0x00, .nop, .none⟩, ⟨0x01, .swap, .none⟩, ⟨0x02, .add, .none⟩, ⟨0x03, .sub, .none⟩,
   ⟨0x04, .write, .none⟩, ⟨0x05, .read, .none⟩, ⟨0x06, .halt, .none⟩, ⟨0x07, .loadi, .none⟩,
   ⟨0x08, .savei, .none⟩]

/-- The format I rows of the InstructionTable: opcodes with bit 7 set (30_encoding.md R56, R59). -/
def formatIRows : List TableRow :=
  [⟨0x80, .load, .address⟩, ⟨0x81, .save, .address⟩, ⟨0x92, .jump, .address⟩,
   ⟨0x93, .jumpz, .address⟩, ⟨0x94, .jumpnz, .address⟩, ⟨0x95, .jumpo, .address⟩,
   ⟨0xA0, .addl, .literal⟩, ⟨0xA1, .subl, .literal⟩, ⟨0xA2, .addlb, .literal⟩,
   ⟨0xA6, .set, .literal⟩, ⟨0xA7, .setb, .literal⟩]

/-- The InstructionTable (30_encoding.md R59): "The table must contain exactly these entries". -/
def instructionTable : List TableRow := formatNRows ++ formatIRows

/-- A mnemonic as the table spells it (30_encoding.md R59). -/
def Mnemonic.text : Mnemonic → String
  | .nop => "NOP"
  | .swap => "SWAP"
  | .add => "ADD"
  | .sub => "SUB"
  | .write => "WRITE"
  | .read => "READ"
  | .halt => "HALT"
  | .loadi => "LOADI"
  | .savei => "SAVEI"
  | .load => "LOAD"
  | .save => "SAVE"
  | .jump => "JUMP"
  | .jumpz => "JUMPZ"
  | .jumpnz => "JUMPNZ"
  | .jumpo => "JUMPO"
  | .addl => "ADDL"
  | .subl => "SUBL"
  | .addlb => "ADDLB"
  | .set => "SET"
  | .setb => "SETB"

/-- The instruction of a mnemonic with operand byte `x`, which a format N instruction does not have. -/
def Mnemonic.instr : Mnemonic → Byte → Instr
  | .nop, _ => .nop
  | .swap, _ => .swap
  | .add, _ => .add
  | .sub, _ => .sub
  | .write, _ => .write
  | .read, _ => .read
  | .halt, _ => .halt
  | .loadi, _ => .loadi
  | .savei, _ => .savei
  | .load, x => .load x
  | .save, x => .save x
  | .jump, x => .jump x
  | .jumpz, x => .jumpz x
  | .jumpnz, x => .jumpnz x
  | .jumpo, x => .jumpo x
  | .addl, x => .addl x
  | .subl, x => .subl x
  | .addlb, x => .addlb x
  | .set, x => .set x
  | .setb, x => .setb x

/-- Bit 7 of the opcode "fixes the length and nothing else does" (30_encoding.md R54): with it set, one operand
byte follows. The rule covers unassigned opcodes too. -/
def hasOperand (opcode : Byte) : Bool := opcode.getLsbD 7

/-- What a byte decodes to (30_encoding.md R60): a table row's instruction, or `Unassigned`. -/
inductive Decoded where
  | instr (i : Instr)
  | unassigned (opcode : Byte)
  deriving DecidableEq, Repr

/-- The table row of an opcode, if there is one (30_encoding.md R60). -/
def lookupOpcode (opcode : Byte) : Option TableRow :=
  instructionTable.find? fun r => r.opcode == opcode

/-- The decoder (30_encoding.md R60), total on all bytes: the instruction in a prefetch buffer that holds
`ir` and `opnd`. -/
def decode (ir opnd : Byte) : Decoded :=
  match lookupOpcode ir with
  | some r => .instr (r.mnemonic.instr opnd)
  | none => .unassigned ir

/-- Why a byte stream holds no whole instruction. -/
inductive DecodeError where
  /-- there is no byte -/
  | noBytes
  /-- the opcode has bit 7 set and the stream ends after it -/
  | missingOperand (opcode : Byte)
  deriving DecidableEq, Repr

/-- The first instruction of a byte stream and the bytes after it, opcode first (30_encoding.md R54 to R56). -/
def decodeBytes : List Byte → Except DecodeError (Decoded × List Byte)
  | [] => .error .noBytes
  | op :: rest =>
    if hasOperand op then
      match rest with
      | [] => .error (.missingOperand op)
      | x :: rest' => .ok (decode op x, rest')
    else .ok (decode op 0, rest)

/-- The instructions of a byte stream, one after another: what the fetch reads along memory when no jump is taken
(40_execution_cycle.md R70). -/
def decodeAll : List Byte → Except DecodeError (List Decoded)
  | [] => .ok []
  | op :: rest =>
    if hasOperand op then
      match rest with
      | [] => .error (.missingOperand op)
      | x :: rest' => (decodeAll rest').map (decode op x :: ·)
    else (decodeAll rest).map (decode op 0 :: ·)

/-- Byte `k` of an instruction whose bits are `w`, numbered from the least significant bit of the first byte;
bits from `nbits` up are 0. -/
def tableByte (nbits w k : Nat) : Byte := BitVec.ofNat 8 ((w % 2 ^ nbits) >>> (8 * k))

/-- The instruction the decoder reads from an instruction whose bits are `w`: the opcode byte in bits 7..0 and
the operand byte in bits 15..8. `none` for an unassigned opcode. -/
def decodeTableWord (nbits w : Nat) : Option Instr :=
  match decodeBytes [tableByte nbits w 0, tableByte nbits w 1] with
  | .ok (.instr i, _) => some i
  | _ => none

/-- The encoder: the bytes of an instruction, in address order, written out from 30_encoding.md R59 and the
`Encoding` field of each instruction's rule (and not from `instructionTable`). -/
def encode : Instr → List Byte
  | .nop => [0x00]
  | .swap => [0x01]
  | .add => [0x02]
  | .sub => [0x03]
  | .write => [0x04]
  | .read => [0x05]
  | .halt => [0x06]
  | .loadi => [0x07]
  | .savei => [0x08]
  | .load x => [0x80, x]
  | .save x => [0x81, x]
  | .jump x => [0x92, x]
  | .jumpz x => [0x93, x]
  | .jumpnz x => [0x94, x]
  | .jumpo x => [0x95, x]
  | .addl x => [0xA0, x]
  | .subl x => [0xA1, x]
  | .addlb x => [0xA2, x]
  | .set x => [0xA6, x]
  | .setb x => [0xA7, x]

end Sys2Proof
end

