-- ==== Sys2Proof/Config.lean ====
section
/-! DEFINITION. What an implementation fixes (00_scope.md section 3) and the values the spec leaves free. -/

namespace Sys2Proof

/-- The five accepted word widths (00_scope.md R6); no other width can be written (92_eei_decisions.md D12). -/
inductive Width where
  | w4 | w8 | w16 | w32 | w64
  deriving DecidableEq, Repr

/-- The number of bits `W` of a width (00_scope.md R6). -/
def Width.bits : Width → Nat
  | .w4 => 4
  | .w8 => 8
  | .w16 => 16
  | .w32 => 32
  | .w64 => 64

/-- The configuration `(W, memsize)`: fixed while the machine runs, and kept by reset (00_scope.md R6, R8).
The defaults are the spec's, 8 and 256. -/
structure Config where
  width : Width := .w8
  memsize : Nat := 256
  memsize_pos : 0 < memsize := by decide
  deriving DecidableEq, Repr

/-- `modulus = 2^W` (00_scope.md R7). -/
def Config.modulus (c : Config) : Nat := 2 ^ c.width.bits

/-- `maxint = modulus - 1` (00_scope.md R7). -/
def Config.maxint (c : Config) : Nat := c.modulus - 1

/-- The accepted width of `n` bits, if there is one (00_scope.md R6). -/
def Width.ofBits? (n : Nat) : Option Width :=
  [Width.w4, .w8, .w16, .w32, .w64].find? fun w => w.bits == n

/-- The configuration of `bits` and `memsize`; any other pair is refused (92_eei_decisions.md D12). -/
def Config.make? (bits memsize : Nat) : Option Config :=
  match Width.ofBits? bits with
  | none => none
  | some w => if h : 0 < memsize then some { width := w, memsize := memsize, memsize_pos := h } else none

/-- The open parameter `startMode` (00_scope.md R10, 92_eei_decisions.md D3): what reset leaves in the
prefetch buffer. -/
inductive StartMode where
  /-- Reset ends with a fetch from address 0 (the spec's default). -/
  | resetPrefetch
  /-- Reset leaves a NOP in the prefetch buffer and `pc = 0`. -/
  | bubble
  deriving DecidableEq, Repr

/-- FREE VALUE. Lower case of a character outside ASCII in an assembly name: the spec matches names
case-insensitively (48_assembler.md R99, R105) and does not say how such a character folds. Log entry 7. -/
opaque Config.lowerNonAscii : Char → List Char

/-- FREE VALUE. Upper case of a character outside ASCII in an assembly keyword (48_assembler.md R102, R106). Log
entry 7. -/
opaque Config.upperNonAscii : Char → List Char

end Sys2Proof
end

