-- ==== Sys2Proof/Machine/State.lean ====
section
/-! DEFINITION. The machine's state (10_state.md R13), why a step can stop, and the state after reset. -/

namespace Sys2Proof.Machine

/-- Memory: (address, byte) pairs in the canonical form of `Memory.wf`, addresses strictly rising and no entry
equal to what an unlisted address reads as. -/
abbrev Memory := List Host.Cell

/-- Why a tick stops: the spec's model outcome `undefined(reason)`, which has no successor state and is NOT the
architectural fault (40_execution_cycle.md R72). The architectural fault is ordinary machine state, the flag
`State.faulted`. Both reasons need `memsize < 256`. -/
inductive Fault where
  /-- `undefined(AddressOutOfRange)`: LOAD or SAVE named a cell that does not exist (20_memory.md R40, R41). Raised
  by `memRead` and `memWrite`. Safe: the model claims nothing about such a run (92_eei_decisions.md D6). -/
  | addressOutOfRange (addr : Nat)
  /-- `undefined(FetchOutOfRange)`: the fetch after a taken jump found `pc` beyond memory (10_state.md R20). Raised by
  `fetch`. Safe, as above. -/
  | fetchOutOfRange (pc : Nat)
  deriving DecidableEq, Repr

/-- Why the model gives an instruction no meaning. -/
inductive Refusal where
  /-- The instruction has no meaning yet. Raised by no arm of `exec`: every instruction is modelled. Safe. -/
  | notModelled (mnemonic : String)
  deriving DecidableEq, Repr

/-- The machine's state: the twelve components of 10_state.md R13, and the configuration `(W, memsize)`, which
is a parameter of every step and which no operation changes (10_state.md R34). -/
structure State where
  /-- the configuration (00_scope.md R6, R8) -/
  cfg : Config
  /-- `registerA` (10_state.md R14) -/
  regA : Nat
  /-- `registerB` (10_state.md R14) -/
  regB : Nat
  /-- `programCounter` (10_state.md R17) -/
  pc : Nat
  /-- `memory` (20_memory.md R38) -/
  mem : Memory
  /-- `currentInstruction`, half of the prefetch buffer (10_state.md R21) -/
  ir : Byte
  /-- `currentOperand`, the other half (10_state.md R21) -/
  opnd : Byte
  /-- the overflow flag (10_state.md R22) -/
  overflow : Bool
  /-- the halted flag (10_state.md R23) -/
  halted : Bool
  /-- the faulted flag: the architectural fault was raised (10_state.md R24) -/
  faulted : Bool
  /-- the last tick produced output (10_state.md R25) -/
  outputWasWritten : Bool
  /-- `inputQueue`, head first: integers, "decoupled from register width" (10_state.md R26) -/
  inQ : List Int
  /-- `outputQueue`, head first (10_state.md R27) -/
  outQ : List Nat
  deriving DecidableEq, Repr

/-- The machine right after construction and reset with the spec's default parameters: `W = 8`,
`memsize = 256`, `startMode = ResetPrefetch` (00_scope.md R6, R8, R10), and with the open parameter `M0` at all
zeros (DESIGN CHOICE, log entry 2). The values are the table of 10_state.md R36: the reset prefetch took the byte
at address 0 into `ir` and left `pc` at 1. `Laws.reset_eq_construct` ties it to the reset operation. -/
def State.reset : State where
  cfg := { width := .w8, memsize := 256 }
  regA := 0
  regB := 0
  pc := 1
  mem := []
  ir := 0x00
  opnd := 0x00
  overflow := false
  halted := false
  faulted := false
  outputWasWritten := false
  inQ := []
  outQ := []

end Sys2Proof.Machine
end

