-- ==== Sys2Proof/Machine/Ops.lean ====
section
/-! DEFINITION. The named operations over memory, the registers, the queues and the flags that the meanings share:
memory reads and writes, the fetch, and raising the architectural fault. -/

namespace Sys2Proof.Machine

/-- What an operation of a tick answers. -/
abbrev Result := Host.Outcome State Fault Refusal

/-- `f` after `r`, if `r` is a next state; a stop passes through. -/
def andThen (r : Result) (f : State → Result) : Result :=
  match r with
  | .next s => f s
  | .fault e => .fault e
  | .refused e => .refused e

/-- A result with `f` applied to its next state, if it has one. -/
def mapNext (f : State → State) (r : Result) : Result := andThen r fun s => .next (f s)

/-! ### Memory -/

/-- What an address that memory does not list reads as: the contents of `State.reset`'s memory. DESIGN CHOICE, log
entry 2 (the spec leaves memory at construction as the parameter `M0`, 10_state.md R37; see `powerOnMemory`). -/
def Memory.unlisted : Byte := 0x00

/-- The byte at address `a`. -/
def Memory.read : Memory → Nat → Byte
  | [], _ => Memory.unlisted
  | (k, v) :: rest, a => if k = a then v else Memory.read rest a

/-- Memory without an entry for `a`. -/
def Memory.without (m : Memory) (a : Nat) : Memory := m.filter fun c => c.1 != a

/-- Memory with the entry `(a, v)` put before the first higher address. -/
def Memory.insertCell : Memory → Nat → Byte → Memory
  | [], a, v => [(a, v)]
  | (k, w) :: rest, a, v => if a < k then (a, v) :: (k, w) :: rest else (k, w) :: Memory.insertCell rest a v

/-- Memory with `v` at address `a`, in canonical form again: writing what an unlisted address reads as removes the
entry. -/
def Memory.write (m : Memory) (a : Nat) (v : Byte) : Memory :=
  if v = Memory.unlisted then Memory.without m a else Memory.insertCell (Memory.without m a) a v

/-- Memory with the bytes `bs` from address `a` up. -/
def Memory.writeBytes : Memory → Nat → List Byte → Memory
  | m, _, [] => m
  | m, a, b :: bs => Memory.writeBytes (Memory.write m a b) (a + 1) bs

/-- The canonical form: addresses strictly rising, and no entry equal to what an unlisted address reads as. -/
def Memory.wf (m : Memory) : Bool :=
  decide (m.Pairwise fun c d => c.1 < d.1) && m.all fun c => c.2 != Memory.unlisted

/-- Every listed address is one of the `n` cells that exist (20_memory.md R38). -/
def Memory.within (n : Nat) (m : Memory) : Bool := m.all fun c => decide (c.1 < n)

/-- The memory of `n` cells that holds the open parameter `M0` (10_state.md R37, 92_eei_decisions.md D8). -/
def powerOnMemory (n : Nat) (m0 : Nat → Byte) : Memory :=
  (List.range n).filterMap fun a => if m0 a = Memory.unlisted then none else some (a, m0 a)

/-- `MemRead(a, 1)`, its byte given to `k`; a cell that does not exist is `undefined` (20_memory.md R40). -/
def memRead (s : State) (a : Nat) (k : Byte → Result) : Result :=
  if a < s.cfg.memsize then k (s.mem.read a) else .fault (.addressOutOfRange a)

/-- `MemWrite(a, 1, v)`; a cell that does not exist is `undefined` (20_memory.md R41). -/
def memWrite (s : State) (a : Nat) (v : Byte) : Result :=
  if a < s.cfg.memsize then .next { s with mem := s.mem.write a v } else .fault (.addressOutOfRange a)

/-! ### Registers, flags and queues -/

/-- `A <- v`. -/
def State.setA (s : State) (v : Nat) : State := { s with regA := v }

/-- `B <- v`. -/
def State.setB (s : State) (v : Nat) : State := { s with regB := v }

/-- `pc <- t`. -/
def State.setPc (s : State) (t : Nat) : State := { s with pc := t }

/-- `overflow <- f`. -/
def State.setOverflow (s : State) (f : Bool) : State := { s with overflow := f }

/-- `halted <- true` (43_control.md R88). -/
def State.setHalted (s : State) : State := { s with halted := true }

/-- Step 1 of a tick: `outputWasWritten <- false`, and nothing else (40_execution_cycle.md R67). -/
def State.clearOutputWasWritten (s : State) : State := { s with outputWasWritten := false }

/-- `v` at the tail of the output queue, and `outputWasWritten <- true` (42_io_queue.md R85). -/
def State.pushOutput (s : State) (v : Nat) : State := { s with outQ := s.outQ ++ [v], outputWasWritten := true }

/-- TAKING THE EXCEPTION, `raise Fault()`: both flags, and nothing else. No trap entry, no cause, no saved `pc`
(60_exceptions.md R113, R114, R118). There is no return from it: only the host's reset leaves the faulted
state (R119; `hostReset`). -/
def raiseFault (s : State) : State := { s with faulted := true, halted := true }

/-! ### The fetch -/

/-- `(pc + 1) mod memsize` (10_state.md R18). -/
def nextAddress (c : Config) (pc : Nat) : Nat := (pc + 1) % c.memsize

/-- The effect of `fetch()` at a `pc` below `memsize` (40_execution_cycle.md R70): one byte into `ir`, and one more
into `opnd` if bit 7 of the first is set, else `opnd <- 0`; `pc` advances past each byte it reads. -/
def refill (s : State) : State :=
  let op := s.mem.read s.pc
  let pc1 := nextAddress s.cfg s.pc
  if hasOperand op then { s with ir := op, opnd := s.mem.read pc1, pc := nextAddress s.cfg pc1 }
  else { s with ir := op, opnd := 0x00, pc := pc1 }

/-- `fetch()` (40_execution_cycle.md R70), `undefined` at a `pc` beyond memory. -/
def fetch (s : State) : Result :=
  if s.pc < s.cfg.memsize then .next (refill s) else .fault (.fetchOutOfRange s.pc)

end Sys2Proof.Machine
end

