-- ==== Sys2Proof/Machine/Operands.lean ====
section
/-! DEFINITION. Every operand form: the literal, the two addressing modes, and the narrowing and widening of values
between registers, memory cells and input values. -/

namespace Sys2Proof.Machine

/-- `toWord(v) = v mod modulus` (00_scope.md section 4). -/
def toWord (c : Config) (v : Nat) : Nat := v % c.modulus

/-- `toWord` of an integer: the residue in `[0, modulus)`, "never negative" (00_scope.md section 4). -/
def intToWord (c : Config) (v : Int) : Nat := (v % (c.modulus : Int)).toNat

/-- `toByte(v) = v mod 256` (00_scope.md section 4; 20_memory.md R44). -/
def toByte (v : Nat) : Byte := BitVec.ofNat 8 v

/-- A literal as an addend: the operand byte zero-extended and NOT reduced, so for `W = 4` it may exceed `maxint`
(30_encoding.md R57; 41_alu_register.md R74). -/
abbrev literalAddend (imm : Byte) : Nat := imm.toNat

/-- A byte written into a register: zero-extended, then `toWord` (20_memory.md R44; 92_eei_decisions.md D5). -/
def byteToWord (c : Config) (b : Byte) : Nat := toWord c b.toNat

/-- Absolute addressing: the operand byte, in `[0, 255]`, unsigned and unscaled (44_memory_access.md R93; 30_encoding.md
R57). -/
abbrev absoluteAddress (addr : Byte) : Nat := addr.toNat

/-- Register-indirect addressing through B, "the whole `W`-bit value, with no offset, scaling or reduction"
(44_memory_access.md R93). -/
abbrev indexedAddress (s : State) : Nat := s.regB

/-- The check of an indexed access: `ea < memsize` (44_memory_access.md R93). -/
abbrev indexedInRange (s : State) : Prop := indexedAddress s < s.cfg.memsize

end Sys2Proof.Machine
end

