-- ==== Sys2Proof/Machine/Flags.lean ====
section
/-! DEFINITION. The ALU and its overflow flag (41_alu_register.md R74): the exact result first, the flag from it,
and only then the reduction. -/

namespace Sys2Proof.Machine

/-- The overflow flag of an exact sum: `sum > maxint` (41_alu_register.md R74). -/
def sumOverflows (c : Config) (sum : Nat) : Bool := decide (sum > c.maxint)

/-- The overflow flag of an exact difference: `diff < 0` (41_alu_register.md R74). -/
def differenceOverflows (diff : Int) : Bool := decide (diff < 0)

/-- `aluAdd(x, y)`: the wrapped sum and its overflow flag (41_alu_register.md R74). -/
def aluAdd (c : Config) (x y : Nat) : Nat × Bool := (toWord c (x + y), sumOverflows c (x + y))

/-- `aluSub(x, y)`: the wrapped difference and its overflow flag (41_alu_register.md R74). -/
def aluSub (c : Config) (x y : Nat) : Nat × Bool :=
  (intToWord c ((x : Int) - (y : Int)), differenceOverflows ((x : Int) - (y : Int)))

/-- `(A, overflow) <- r`, as ADD, SUB, ADDL and SUBL do (41_alu_register.md R78 to R81). -/
def State.setAluA (s : State) (r : Nat × Bool) : State := (s.setA r.1).setOverflow r.2

/-- `(B, overflow) <- r`, as ADDLB does (41_alu_register.md R82). -/
def State.setAluB (s : State) (r : Nat × Bool) : State := (s.setB r.1).setOverflow r.2

end Sys2Proof.Machine
end

