-- ==== Sys2Proof/Machine/Alu.lean ====
section
/-! DEFINITION. The ALU and register instructions and the unassigned opcodes (41_alu_register.md; 30_encoding.md R61). -/

namespace Sys2Proof.Machine

/-- NOP: no effect (41_alu_register.md R76). -/
def execNop (s : State) : Result := .next s

/-- An opcode absent from the table: "a silent no-op" (30_encoding.md R61). -/
def execUnassigned (_opcode : Byte) (s : State) : Result := .next s

/-- SWAP: `(A, B) <- (B, A)`, both reads before both writes (41_alu_register.md R77). -/
def execSwap (s : State) : Result := .next ((s.setA s.regB).setB s.regA)

/-- ADD: `(A, overflow) <- aluAdd(A, B)` (41_alu_register.md R78). -/
def execAdd (s : State) : Result := .next (s.setAluA (aluAdd s.cfg s.regA s.regB))

/-- SUB: `(A, overflow) <- aluSub(A, B)` (41_alu_register.md R79). -/
def execSub (s : State) : Result := .next (s.setAluA (aluSub s.cfg s.regA s.regB))

/-- ADDL: `(A, overflow) <- aluAdd(A, opnd)` (41_alu_register.md R80). -/
def execAddl (imm : Byte) (s : State) : Result := .next (s.setAluA (aluAdd s.cfg s.regA (literalAddend imm)))

/-- SUBL: `(A, overflow) <- aluSub(A, opnd)` (41_alu_register.md R81). -/
def execSubl (imm : Byte) (s : State) : Result := .next (s.setAluA (aluSub s.cfg s.regA (literalAddend imm)))

/-- ADDLB: `(B, overflow) <- aluAdd(B, opnd)`; A is neither read nor written (41_alu_register.md R82;
92_eei_decisions.md D7). -/
def execAddlb (imm : Byte) (s : State) : Result := .next (s.setAluB (aluAdd s.cfg s.regB (literalAddend imm)))

/-- SET: `A <- toWord(opnd)` (41_alu_register.md R83). -/
def execSet (imm : Byte) (s : State) : Result := .next (s.setA (byteToWord s.cfg imm))

/-- SETB: `B <- toWord(opnd)` (41_alu_register.md R84). -/
def execSetb (imm : Byte) (s : State) : Result := .next (s.setB (byteToWord s.cfg imm))

end Sys2Proof.Machine
end

