-- ==== Sys2Proof/Machine/Control.lean ====
section
/-! DEFINITION. The control instructions (43_control.md). The target of a taken jump is fetched in step 3 of the
same tick (R87), by `fetch`. -/

namespace Sys2Proof.Machine

/-- `if taken: pc <- opnd` (43_control.md R87). -/
def jumpWhen (taken : Bool) (addr : Byte) (s : State) : Result :=
  .next (if taken then s.setPc (absoluteAddress addr) else s)

/-- HALT: `halted <- true` (43_control.md R88). -/
def execHalt (s : State) : Result := .next s.setHalted

/-- JUMP: `pc <- opnd` (43_control.md R89). -/
def execJump (addr : Byte) (s : State) : Result := jumpWhen true addr s

/-- JUMPZ: taken iff `A == 0`, A compared as a whole value (43_control.md R90). -/
def execJumpz (addr : Byte) (s : State) : Result := jumpWhen (s.regA == 0) addr s

/-- JUMPNZ: taken iff `A != 0` (43_control.md R91). -/
def execJumpnz (addr : Byte) (s : State) : Result := jumpWhen (s.regA != 0) addr s

/-- JUMPO: taken iff the overflow flag is set, which it does not clear (43_control.md R92). -/
def execJumpo (addr : Byte) (s : State) : Result := jumpWhen s.overflow addr s

end Sys2Proof.Machine
end

