-- ==== Sys2Proof/Machine/MemoryAccess.lean ====
section
/-! DEFINITION. The memory access instructions (44_memory_access.md). -/

namespace Sys2Proof.Machine

/-- LOADI: the architectural fault if `B ≥ memsize`, before any access; else `A <- toWord(mem[B])`
(44_memory_access.md R94). -/
def execLoadi (s : State) : Result :=
  if indexedInRange s then memRead s (indexedAddress s) fun b => .next (s.setA (byteToWord s.cfg b))
  else .next (raiseFault s)

/-- SAVEI: the architectural fault if `B ≥ memsize`; else `mem[B] <- toByte(A)` (44_memory_access.md R95;
92_eei_decisions.md D4). -/
def execSavei (s : State) : Result :=
  if indexedInRange s then memWrite s (indexedAddress s) (toByte s.regA) else .next (raiseFault s)

/-- LOAD: `A <- toWord(mem[opnd])` (44_memory_access.md R96). -/
def execLoad (addr : Byte) (s : State) : Result :=
  memRead s (absoluteAddress addr) fun b => .next (s.setA (byteToWord s.cfg b))

/-- SAVE: `mem[opnd] <- toByte(A)` (44_memory_access.md R97). -/
def execSave (addr : Byte) (s : State) : Result := memWrite s (absoluteAddress addr) (toByte s.regA)

end Sys2Proof.Machine
end

