-- ==== Sys2Proof/Machine/Queue.lean ====
section
/-! DEFINITION. The input and output queue instructions (42_io_queue.md). -/

namespace Sys2Proof.Machine

/-- WRITE: A as it is, at the tail of the output queue (42_io_queue.md R85). -/
def execWrite (s : State) : Result := .next (s.pushOutput s.regA)

/-- READ: the head of the input queue reduced into A, or 0 when the queue is empty; it never blocks
(42_io_queue.md R86). -/
def execRead (s : State) : Result :=
  match s.inQ with
  | v :: rest => .next { s with regA := intToWord s.cfg v, inQ := rest }
  | [] => .next (s.setA 0)

end Sys2Proof.Machine
end

