-- ==== Sys2Proof/Machine/Dispatch.lean ====
section
/-! DEFINITION. Step 2 of a tick for one instruction: the handler of each InstructionTable row
(40_execution_cycle.md R68). -/

namespace Sys2Proof.Machine

def exec (i : Instr) (s : State) : Host.Outcome State Fault Refusal :=
  match i with
  | .nop => Sys2Proof.Machine.execNop s
  | .swap => Sys2Proof.Machine.execSwap s
  | .add => Sys2Proof.Machine.execAdd s
  | .sub => Sys2Proof.Machine.execSub s
  | .write => Sys2Proof.Machine.execWrite s
  | .read => Sys2Proof.Machine.execRead s
  | .halt => Sys2Proof.Machine.execHalt s
  | .loadi => Sys2Proof.Machine.execLoadi s
  | .savei => Sys2Proof.Machine.execSavei s
  | .load addr => Sys2Proof.Machine.execLoad addr s
  | .save addr => Sys2Proof.Machine.execSave addr s
  | .jump addr => Sys2Proof.Machine.execJump addr s
  | .jumpz addr => Sys2Proof.Machine.execJumpz addr s
  | .jumpnz addr => Sys2Proof.Machine.execJumpnz addr s
  | .jumpo addr => Sys2Proof.Machine.execJumpo addr s
  | .addl imm => Sys2Proof.Machine.execAddl imm s
  | .subl imm => Sys2Proof.Machine.execSubl imm s
  | .addlb imm => Sys2Proof.Machine.execAddlb imm s
  | .set imm => Sys2Proof.Machine.execSet imm s
  | .setb imm => Sys2Proof.Machine.execSetb imm s

end Sys2Proof.Machine
end

