-- ==== Sys2Proof/Machine/Cycle.lean ====
section
/-! DEFINITION. The tick (40_execution_cycle.md): its three steps, and where it finds its instruction. -/

namespace Sys2Proof.Machine

/-- Step 2 of a tick: the instruction in the prefetch buffer (40_execution_cycle.md R68). -/
def executeBuffer (s : State) : Result :=
  match decode s.ir s.opnd with
  | .instr i => exec i s
  | .unassigned op => execUnassigned op s

/-- `tick()` (40_execution_cycle.md R65): nothing in a halted state (R66); otherwise step 1, step 2, and then
the fetch, in the halting tick too (R69). -/
def tick (s : State) : Result :=
  if s.halted then .next s else andThen (executeBuffer s.clearOutputWasWritten) fetch

/-- The prefetch buffer, which is where a tick finds its instruction (40_execution_cycle.md R71), holding the
instruction whose bits are `w`: as a fetch of its bytes would leave it (R70). Nothing else changes. -/
def placeInstruction (s : State) (nbits w : Nat) : State :=
  let op := tableByte nbits w 0
  { s with ir := op, opnd := if hasOperand op then tableByte nbits w 1 else 0x00 }

end Sys2Proof.Machine
end

