-- ==== Sys2Proof/Machine/Step.lean ====
section
/-! DEFINITION. The machine's step is one tick, "the machine's only unit of progress" (00_scope.md section 5). -/

namespace Sys2Proof.Machine

/-- One step of the machine: `tick()` (40_execution_cycle.md R65). -/
def step (s : State) : Host.Outcome State Fault Refusal := tick s

/-- `s` with an instruction where `step` finds it: in the prefetch buffer (log entry 4). -/
def State.withFetchWord (s : State) (nbits w : Nat) : State := placeInstruction s nbits w

end Sys2Proof.Machine
end

