-- ==== Sys2Proof/Machine/Assembler.lean ====
section
/-! DEFINITION. The two-pass assembler with its label-resolution state machine (48_assembler.md). It is a tool and
no part of the machine's state; its text is a list of characters. -/

namespace Sys2Proof.Machine

/-! ### State -/

/-- The assembly error kinds (48_assembler.md R110). -/
inductive AsmErrorKind where
  | unknownMnemonic
  | missingOperand
  | malformedOperand
  | duplicateLabel
  | unresolvedLabel
  | programTooLarge
  /-- the spec's own kind (48_assembler.md R109; 92_eei_decisions.md D21) -/
  | labelOutOfRange
  deriving DecidableEq, Repr

/-- `AssemblyError(kind, line)`, the line 1-based (48_assembler.md R98). -/
structure AssemblyError where
  kind : AsmErrorKind
  line : Nat
  deriving DecidableEq, Repr

/-- The phases of the label-resolution state machine (48_assembler.md R99, R100). -/
inductive AsmPhase where
  | pass1
  | resolving
  | done
  | failed (kind : AsmErrorKind) (line : Nat)
  deriving DecidableEq, Repr

/-- A deferred label reference: the name, the offset of its placeholder byte and its line (48_assembler.md R99;
92_eei_decisions.md D22). -/
structure Patch where
  name : List Char
  offset : Nat
  line : Nat
  deriving DecidableEq, Repr

/-- The assembler's state (48_assembler.md R99). -/
structure AsmState where
  buf : List Byte
  /-- lower-cased name to buffer offset, in order of definition -/
  labels : List (List Char × Nat)
  patches : List Patch
  lineNo : Nat
  phase : AsmPhase
  deriving DecidableEq, Repr

/-- The initial column of 48_assembler.md R99. -/
def AsmState.init : AsmState := { buf := [], labels := [], patches := [], lineNo := 0, phase := .pass1 }

/-! ### Characters and text -/

/-- Whitespace: space, tab, CR (48_assembler.md R102). -/
def isBlank (c : Char) : Bool := c == ' ' || c == '\t' || c == '\r'

/-- ASCII: U+0000..U+007F (48_assembler.md R103). -/
def isAscii (c : Char) : Bool := decide (c.toNat < 128)

/-- `lower(t)`, character by character: ASCII letters fold, any other character to a free value (log entry 7). -/
def lowerText (t : List Char) : List Char :=
  t.flatMap fun c => if isAscii c then [c.toLower] else Config.lowerNonAscii c

/-- `upper(t)`, likewise. -/
def upperText (t : List Char) : List Char :=
  t.flatMap fun c => if isAscii c then [c.toUpper] else Config.upperNonAscii c

/-- A text cut at every character that `p` holds of: one piece more than there are cuts. -/
def splitText (p : Char → Bool) : List Char → List (List Char)
  | [] => [[]]
  | c :: rest =>
    if p c then [] :: splitText p rest
    else
      match splitText p rest with
      | [] => [[c]]
      | w :: ws => (c :: w) :: ws

/-- A line without a CR that ends it (48_assembler.md R98). -/
def dropFinalCr (line : List Char) : List Char := if line.getLast? = some '\r' then line.dropLast else line

/-- The lines of a text: split at each LF, and the empty last line of a text that ends in LF ignored (48_assembler.md
R98; 92_eei_decisions.md D15). A final CR is removed by `assembleLine`. That the empty text, which has no LF, has no line
either is the model's (DESIGN CHOICE, log entry 16). -/
def sourceLines (source : List Char) : List (List Char) :=
  let lines := splitText (· == '\n') source
  if lines.getLast? = some [] then lines.dropLast else lines

/-- A line with leading and trailing whitespace removed (48_assembler.md R102). -/
def trimText (line : List Char) : List Char := ((line.dropWhile isBlank).reverse.dropWhile isBlank).reverse

/-- `kw`: a trimmed line up to its first whitespace (48_assembler.md R102). -/
def firstWord (s : List Char) : List Char := s.takeWhile fun c => !isBlank c

/-- `rest`: what follows `kw` and the whitespace after it (48_assembler.md R102). -/
def afterFirstWord (s : List Char) : List Char := (s.dropWhile fun c => !isBlank c).dropWhile isBlank

/-- The tokens of a text: "runs of whitespace count as one separator" (48_assembler.md R102). -/
def tokens (s : List Char) : List (List Char) := (splitText isBlank s).filter fun w => !w.isEmpty

/-- The value of a hex digit of either case (92_eei_decisions.md D17). -/
def hexDigit? (c : Char) : Option Nat :=
  if '0' ≤ c ∧ c ≤ '9' then some (c.toNat - '0'.toNat)
  else if 'a' ≤ c ∧ c ≤ 'f' then some (c.toNat - 'a'.toNat + 10)
  else if 'A' ≤ c ∧ c ≤ 'F' then some (c.toNat - 'A'.toNat + 10)
  else none

/-- The byte of a pair of hex digits, the high one first (48_assembler.md R104). -/
def hexByte? (hi lo : Char) : Option Byte :=
  match hexDigit? hi, hexDigit? lo with
  | some h, some l => some (BitVec.ofNat 8 (16 * h + l))
  | _, _ => none

/-! ### Directives -/

/-- The one-letter escapes of `STR`; the byte values are ASCII codes (48_assembler.md R103). -/
def simpleEscape? (c : Char) : Option Byte :=
  if c = 'n' then some 0x0A
  else if c = 't' then some 0x09
  else if c = 'r' then some 0x0D
  else if c = '0' then some 0x00
  else if c = '\\' then some 0x5C
  else none

/-- The bytes of a `STR` text after escape processing, without the terminator; `none` is `MalformedOperand`
(48_assembler.md R103). -/
def strBytes? : List Char → Option (List Byte)
  | [] => some []
  | c :: rest =>
    if c = '\\' then
      match rest with
      | [] => none
      | e :: rest1 =>
        if e = 'x' then
          match rest1 with
          | hi :: lo :: rest2 =>
            match hexByte? hi lo with
            | some b => (strBytes? rest2).map (b :: ·)
            | none => none
          | _ => none
        else
          match simpleEscape? e with
          | some b => (strBytes? rest1).map (b :: ·)
          | none => none
    else if isAscii c then (strBytes? rest).map (BitVec.ofNat 8 c.toNat :: ·)
    else none

/-- The bytes of a `HEX` operand whose whitespace is removed; `none` is `MalformedOperand` (48_assembler.md R104). -/
def hexPairs? : List Char → Option (List Byte)
  | [] => some []
  | [_] => none
  | hi :: lo :: rest =>
    match hexByte? hi lo with
    | some b => (hexPairs? rest).map (b :: ·)
    | none => none

/-! ### Classifying a line -/

/-- What a line is (48_assembler.md R102). -/
inductive LineForm where
  /-- blank or a comment -/
  | ignored
  | str (text : List Char)
  | hex (rest : List Char)
  | label (name : List Char)
  | instruction (kw : List Char) (ops : List (List Char))
  deriving DecidableEq, Repr

/-- The text of a `STR` line: what follows the keyword `kw` and the one space or tab after it, with no other
trimming (48_assembler.md R103). -/
def strText (line kw : List Char) : List Char :=
  match (line.dropWhile isBlank).drop kw.length with
  | [] => []
  | c :: rest => if c = ' ' ∨ c = '\t' then rest else c :: rest

/-- The name a label definition's only word defines: `kw` without its final colon, non-empty and with no colon
(48_assembler.md R102). -/
def labelName? (kw : List Char) : Option (List Char) :=
  if kw.getLast? = some ':' ∧ kw.dropLast ≠ [] ∧ ':' ∉ kw.dropLast then some kw.dropLast else none

/-- The form of a line that ends in no CR, "first match wins" (48_assembler.md R102). -/
def classify (line : List Char) : LineForm :=
  let s := trimText line
  let kw := firstWord s
  let rest := afterFirstWord s
  if s = [] then .ignored
  else if s.head? = some '#' then .ignored
  else if upperText kw = "STR".toList then .str (strText line kw)
  else if upperText kw = "HEX".toList then .hex rest
  else
    match (if rest = [] then labelName? kw else none) with
    | some name => .label name
    | none => .instruction kw (tokens rest)

/-! ### Pass 1 -/

/-- `fail kind`: the pass ends at the current line (48_assembler.md R100). -/
def AsmState.fail (st : AsmState) (kind : AsmErrorKind) : AsmState := { st with phase := .failed kind st.lineNo }

/-- `f` in pass 1; a failed pass goes no further (48_assembler.md R100). -/
def inPass1 (f : AsmState → AsmState) (st : AsmState) : AsmState := if st.phase = .pass1 then f st else st

/-- `emit(b)` (48_assembler.md R101). -/
def emit (memsize : Nat) (st : AsmState) (b : Byte) : AsmState :=
  inPass1 (fun st => if memsize ≤ st.buf.length then st.fail .programTooLarge else { st with buf := st.buf ++ [b] }) st

/-- The bytes `bs` emitted in order. -/
def emitAll (memsize : Nat) (bs : List Byte) (st : AsmState) : AsmState := bs.foldl (emit memsize) st

/-- A patch recorded for the byte about to be emitted (48_assembler.md R106). -/
def addPatch (name : List Char) (st : AsmState) : AsmState :=
  inPass1 (fun st => { st with patches := st.patches ++ [⟨name, st.buf.length, st.lineNo⟩] }) st

/-- The offset of a label, by its lower-cased name (48_assembler.md R99). -/
def labelOffset? (labels : List (List Char × Nat)) (name : List Char) : Option Nat :=
  (labels.find? fun l => l.1 == name).map Prod.snd

/-- A label definition: write-once, and it emits nothing (48_assembler.md R105). -/
def defineLabel (name : List Char) (st : AsmState) : AsmState :=
  match labelOffset? st.labels (lowerText name) with
  | some _ => st.fail .duplicateLabel
  | none => { st with labels := st.labels ++ [(lowerText name, st.buf.length)] }

/-- The table row of a mnemonic in any case (48_assembler.md R106). -/
def lookupMnemonic (kw : List Char) : Option TableRow :=
  instructionTable.find? fun r => r.mnemonic.text.toList == upperText kw

/-- What the operand of a format I instruction is (48_assembler.md R106). -/
inductive OperandForm where
  /-- two hex digits -/
  | value (b : Byte)
  /-- `:name`, the name lower-cased -/
  | labelRef (name : List Char)
  | malformed
  deriving DecidableEq, Repr

/-- The form of an operand token (48_assembler.md R106, R107). -/
def operandForm (op : List Char) : OperandForm :=
  match op with
  | ':' :: name => if name = [] ∨ ':' ∈ name then .malformed else .labelRef (lowerText name)
  | [hi, lo] =>
    match hexByte? hi lo with
    | some b => .value b
    | none => .malformed
  | _ => .malformed

/-- A format I line: its opcode, then its operand byte or a zero placeholder with a patch (48_assembler.md R106). -/
def assembleFormatI (memsize : Nat) (opcode : Byte) (ops : List (List Char)) (st : AsmState) : AsmState :=
  match ops with
  | [] => st.fail .missingOperand
  | [op] =>
    match operandForm op with
    | .value b => emitAll memsize [opcode, b] st
    | .labelRef name => emit memsize (addPatch name (emit memsize st opcode)) 0x00
    | .malformed => st.fail .malformedOperand
  | _ :: _ :: _ => st.fail .malformedOperand

/-- An instruction line; every error is raised before the line's first `emit` (48_assembler.md R106). -/
def assembleInstruction (memsize : Nat) (kw : List Char) (ops : List (List Char)) (st : AsmState) : AsmState :=
  match lookupMnemonic kw with
  | none => st.fail .unknownMnemonic
  | some row =>
    if hasOperand row.opcode then assembleFormatI memsize row.opcode ops st
    else if ops = [] then emit memsize st row.opcode
    else st.fail .malformedOperand

/-- The effect of a line of a given form (48_assembler.md R102 to R106). -/
def assembleForm (memsize : Nat) (form : LineForm) (st : AsmState) : AsmState :=
  match form with
  | .ignored => st
  | .str text =>
    match strBytes? text with
    | some bs => emitAll memsize (bs ++ [0x00]) st
    | none => st.fail .malformedOperand
  | .hex rest =>
    match hexPairs? (rest.filter fun c => !isBlank c) with
    | some bs => emitAll memsize bs st
    | none => st.fail .malformedOperand
  | .label name => defineLabel name st
  | .instruction kw ops => assembleInstruction memsize kw ops st

/-- `assembleLine(line)` (48_assembler.md R98, R100): the line number counts up to this line's, and the line, less a
CR that ends it, takes effect. Outside pass 1 it does nothing: an instance is "single-use" (R99). -/
def assembleLine (memsize : Nat) (st : AsmState) (line : List Char) : AsmState :=
  inPass1 (fun st => assembleForm memsize (classify (dropFinalCr line)) { st with lineNo := st.lineNo + 1 }) st

/-! ### Resolution -/

/-- The end of the text: `Pass1 → Resolving` (48_assembler.md R100). -/
def endOfText (st : AsmState) : AsmState := inPass1 (fun st => { st with phase := .resolving }) st

/-- One patch applied, in place, or the error of its line (48_assembler.md R108, R109). -/
def applyPatch (st : AsmState) (p : Patch) : AsmState :=
  if st.phase = .resolving then
    match labelOffset? st.labels p.name with
    | none => { st with phase := .failed .unresolvedLabel p.line }
    | some v =>
      if v > 255 then { st with phase := .failed .labelOutOfRange p.line }
      else { st with buf := st.buf.set p.offset (BitVec.ofNat 8 v) }
  else st

/-- Resolution: every patch in recording order, then `Resolving → Done` (48_assembler.md R100, R108). -/
def resolve (st : AsmState) : AsmState :=
  let st' := st.patches.foldl applyPatch st
  if st'.phase = .resolving then { st' with phase := .done } else st'

/-- The assembler's state after a whole text: pass 1 over its lines, then resolution (48_assembler.md R98, R100). -/
def assembleState (memsize : Nat) (source : List Char) : AsmState :=
  resolve (endOfText ((sourceLines source).foldl (assembleLine memsize) AsmState.init))

/-- `assembleText(source)` for a machine of `memsize` cells (48_assembler.md R98): the buffer, or the error. The phase
it reads is `Done` or `Failed`, by `Laws.assembleState_terminal`. -/
def assembleText (memsize : Nat) (source : List Char) : Except AssemblyError (List Byte) :=
  match (assembleState memsize source).phase with
  | .failed kind line => .error ⟨kind, line⟩
  | .pass1 => .ok (assembleState memsize source).buf
  | .resolving => .ok (assembleState memsize source).buf
  | .done => .ok (assembleState memsize source).buf

/-! ### Assembly text, as the statements build it -/

/-- A word of a line: ASCII characters, at least one, none of them a blank. -/
def asciiWord (w : List Char) : Bool := !w.isEmpty && w.all fun c => isAscii c && !isBlank c

/-- Words as a line, a space between each two. -/
def lineText : List (List Char) → List Char
  | [] => []
  | [w] => w
  | w :: v :: rest => w ++ ' ' :: lineText (v :: rest)

/-- The state in which a line is refused (48_assembler.md R100; log entries 9 and 11). -/
def failedLine (kind : AsmErrorKind) (st : AsmState) : AsmState :=
  { st with lineNo := st.lineNo + 1, phase := .failed kind (st.lineNo + 1) }

/-- One piece of a `STR` text with the byte it stands for: a row of the escape table, or an ASCII character that begins
no escape (48_assembler.md R103). -/
def strPiece (p : List Char × Byte) : Prop :=
  p ∈ [(['\\', 'n'], (0x0A : Byte)), (['\\', 't'], 0x09), (['\\', 'r'], 0x0D), (['\\', '0'], 0x00), (['\\', '\\'], 0x5C)] ∨
  (∃ hi lo, p.1 = ['\\', 'x', hi, lo] ∧ hexByte? hi lo = some p.2) ∨
  (∃ c, p.1 = [c] ∧ isAscii c = true ∧ c ≠ '\\' ∧ p.2 = BitVec.ofNat 8 c.toNat)

/-- What no piece of a `STR` text begins: a lone final backslash, a backslash before another character, `\x` without two
hex digits, a character outside ASCII (48_assembler.md R103). -/
def strBad (t : List Char) : Prop :=
  t = ['\\'] ∨
  (∃ e rest, t = '\\' :: e :: rest ∧ e ∉ ['n', 't', 'r', '0', '\\', 'x']) ∨
  (∃ rest, t = '\\' :: 'x' :: rest ∧ ∀ hi lo rest', rest = hi :: lo :: rest' → hexByte? hi lo = none) ∨
  (∃ c rest, t = c :: rest ∧ isAscii c = false)


/-- A hex digit of a value below 16, in upper case. -/
def hexDigitChar (n : Nat) : Char := if n < 10 then Char.ofNat (48 + n) else Char.ofNat (55 + n)

/-- A byte as exactly two hex digits (30_encoding.md R64). -/
def hexText (b : Byte) : List Char := [hexDigitChar (b.toNat / 16), hexDigitChar (b.toNat % 16)]

/-- The operand byte of an instruction, if it has one (30_encoding.md R57). -/
def operandByte? (i : Instr) : Option Byte := (encode i)[1]?

/-- An instruction as an assembly line, `MNEMONIC` or `MNEMONIC hh` (30_encoding.md R64). -/
def instrText (i : Instr) : List Char :=
  match operandByte? i with
  | none => i.mnemonic.text.toList
  | some b => i.mnemonic.text.toList ++ ' ' :: hexText b

/-- A program as an assembly text, one instruction a line, each line ended by LF. -/
def listing (program : List Instr) : List Char := program.flatMap fun i => instrText i ++ ['\n']

end Sys2Proof.Machine
end

