-- ==== Sys2Proof/Machine/HostOps.lean ====
section
/-! DEFINITION. The host's operations other than `tick` (10_state.md R33): load, reset, the queue operations, the
queries; construction and the boot order (70_reset_and_hazards.md R130). -/

namespace Sys2Proof.Machine

/-! ### Load -/

/-- A `load` list as bytes, if every element is in `[0, 255]` (20_memory.md R48; 92_eei_decisions.md D25). -/
def bytesOf? : List Int → Option (List Byte)
  | [] => some []
  | v :: vs => if 0 ≤ v ∧ v ≤ 255 then (bytesOf? vs).map (BitVec.ofNat 8 v.toNat :: ·) else none

/-- What `load` answers. -/
inductive LoadOutcome where
  /-- the bytes are in memory -/
  | ok (s : State)
  /-- `LoadError.OutOfRange`, the state unchanged (20_memory.md R48) -/
  | outOfRange
  /-- the list holds an element that is no byte: a refused argument (92_eei_decisions.md D25) -/
  | notBytes
  deriving DecidableEq, Repr

/-- `load(bytes, offset)` (20_memory.md R48): writes those cells and nothing else, in particular not the prefetch
buffer (70_reset_and_hazards.md R132). -/
def hostLoad (bytes : List Int) (offset : Int) (s : State) : LoadOutcome :=
  match bytesOf? bytes with
  | none => .notBytes
  | some bs =>
    if offset < 0 ∨ offset + bs.length > s.cfg.memsize then .outOfRange
    else .ok { s with mem := s.mem.writeBytes offset.toNat bs }

/-! ### Reset and construction -/

/-- The state reset reaches before its prefetch: everything zero, false or empty, `ir` a NOP; memory and the
configuration kept (70_reset_and_hazards.md R128). -/
def clearForReset (s : State) : State :=
  { cfg := s.cfg, regA := 0, regB := 0, pc := 0, mem := s.mem, ir := 0x00, opnd := 0x00, overflow := false,
    halted := false, faulted := false, outputWasWritten := false, inQ := [], outQ := [] }

/-- `reset()` (70_reset_and_hazards.md R128): in `ResetPrefetch` mode it ends with a fetch at `pc = 0`, which is
always defined because `memsize ≥ 1`. The only way out of the halted and faulted states (60_exceptions.md R119). -/
def hostReset (mode : StartMode) (s : State) : State :=
  match mode with
  | .resetPrefetch => refill (clearForReset s)
  | .bubble => clearForReset s

/-- Construction: memory holds the open parameter `M0`, and then a reset (10_state.md R37). -/
def construct (cfg : Config) (mode : StartMode) (m0 : Nat → Byte) : State :=
  hostReset mode
    { cfg := cfg, regA := 0, regB := 0, pc := 0, mem := powerOnMemory cfg.memsize m0, ir := 0x00, opnd := 0x00,
      overflow := false, halted := false, faulted := false, outputWasWritten := false, inQ := [], outQ := [] }

/-! ### The queues -/

/-- `pushInput(v)`: `v`, any integer, at the tail of the input queue (10_state.md R26, R33). -/
def pushInput (v : Int) (s : State) : State := { s with inQ := s.inQ ++ [v] }

/-- The inputs of a run, pushed in order (70_reset_and_hazards.md R130). -/
def pushInputs (vs : List Int) (s : State) : State := { s with inQ := s.inQ ++ vs }

/-- `popOutput()`: the head of the output queue, or `none` and no change when it is empty (10_state.md R33;
92_eei_decisions.md D13). -/
def popOutput (s : State) : Option Nat × State :=
  match s.outQ with
  | v :: rest => (some v, { s with outQ := rest })
  | [] => (none, s)

/-! ### Queries -/

/-- `isHalted()` (10_state.md R33). -/
def isHalted (s : State) : Bool := s.halted

/-- `isFaulted()` (10_state.md R33): how the host tells a fault from a clean halt (60_exceptions.md R127). -/
def isFaulted (s : State) : Bool := s.faulted

/-- The `outputWasWritten` query (10_state.md R33). -/
def outputWasWrittenQuery (s : State) : Bool := s.outputWasWritten

/-- What state inspection shows (10_state.md R33; 92_eei_decisions.md D26). -/
structure Inspection where
  regA : Nat
  regB : Nat
  pc : Nat
  mem : Memory
  overflow : Bool
  deriving DecidableEq, Repr

/-- State inspection (10_state.md R33). -/
def inspect (s : State) : Inspection :=
  { regA := s.regA, regB := s.regB, pc := s.pc, mem := s.mem, overflow := s.overflow }

/-- The control state machine's three states (10_state.md R32). -/
inductive ControlState where
  | running
  | halted
  | faulted
  deriving DecidableEq, Repr

/-- The control state, "computed from the two flags"; `none` for the combination that is never reached (10_state.md
R32). -/
def State.control (s : State) : Option ControlState :=
  match s.halted, s.faulted with
  | false, false => some .running
  | true, false => some .halted
  | true, true => some .faulted
  | false, true => none

/-! ### Boot -/

/-- Steps 2 to 4 of the boot order (70_reset_and_hazards.md R130) on a machine already constructed: load at offset 0,
reset, push the inputs. -/
def boot (mode : StartMode) (program : List Int) (inputs : List Int) (s : State) : Option State :=
  match hostLoad program 0 s with
  | .ok t => some (pushInputs inputs (hostReset mode t))
  | .outOfRange => none
  | .notBytes => none

end Sys2Proof.Machine
end

