-- ==== Sys2Proof/Machine/HostInterface.lean ====
section
/-! DEFINITION. The host's operations as one alphabet (10_state.md R33), each one indivisible step, and the harness
loop that drives a run (70_reset_and_hazards.md R130 step 5; 40_execution_cycle.md R73). -/

namespace Sys2Proof.Machine

/-- The operations of 10_state.md R33. The host may apply any of them, in any order, between ticks. -/
inductive HostOp where
  | load (bytes : List Int) (offset : Int)
  | reset
  | tick
  | pushInput (v : Int)
  | popOutput
  | isHalted
  | isFaulted
  | outputWasWritten
  | inspect
  deriving DecidableEq, Repr

/-- The result column of 10_state.md R33. -/
inductive HostResult where
  /-- none -/
  | unit
  /-- `LoadError.OutOfRange` -/
  | loadOutOfRange
  /-- what `popOutput` returns -/
  | popped (v : Option Nat)
  /-- what a query returns -/
  | flag (b : Bool)
  /-- what state inspection returns -/
  | inspection (i : Inspection)
  deriving DecidableEq, Repr

/-- What a host operation answers. -/
inductive HostOutcome where
  /-- the operation ran to completion -/
  | returns (s : State) (r : HostResult)
  /-- a tick met `undefined(reason)` (40_execution_cycle.md R72) -/
  | undefined (f : Fault)
  /-- the model gives the instruction no meaning; no operation answers this -/
  | refused (r : Refusal)
  /-- an argument outside the operation's domain (92_eei_decisions.md D25) -/
  | badArgument
  deriving DecidableEq, Repr

/-- A tick's result as the host sees it. -/
def hostTick (s : State) : HostOutcome :=
  match step s with
  | .next t => .returns t .unit
  | .fault f => .undefined f
  | .refused r => .refused r

/-- A load as the host sees it: out of range leaves the state unchanged (20_memory.md R48). -/
def hostLoadOp (bytes : List Int) (offset : Int) (s : State) : HostOutcome :=
  match hostLoad bytes offset s with
  | .ok t => .returns t .unit
  | .outOfRange => .returns s .loadOutOfRange
  | .notBytes => .badArgument

/-- One host operation on a machine whose start mode is `mode` (10_state.md R33). -/
def hostStep (mode : StartMode) (op : HostOp) (s : State) : HostOutcome :=
  match op with
  | .load bytes offset => hostLoadOp bytes offset s
  | .reset => .returns (hostReset mode s) .unit
  | .tick => hostTick s
  | .pushInput v => .returns (pushInput v s) .unit
  | .popOutput => .returns (popOutput s).2 (.popped (popOutput s).1)
  | .isHalted => .returns s (.flag (isHalted s))
  | .isFaulted => .returns s (.flag (isFaulted s))
  | .outputWasWritten => .returns s (.flag (outputWasWrittenQuery s))
  | .inspect => .returns s (.inspection (inspect s))

/-- One turn of the harness loop (70_reset_and_hazards.md R130 step 5): a tick, and a pop when the tick produced
output. The list is what the host has popped so far. -/
def harnessTurn (s : State) (popped : List Nat) : Host.Outcome (State × List Nat) Fault Refusal :=
  match step s with
  | .next t => if t.outputWasWritten then .next ((popOutput t).2, popped ++ (popOutput t).1.toList) else .next (t, popped)
  | .fault f => .fault f
  | .refused r => .refused r

/-- At most `n` turns of the harness loop, ended by `isHalted()` (70_reset_and_hazards.md R130; 40_execution_cycle.md
R73). -/
def harnessRun : Nat → State → List Nat → Host.Outcome (State × List Nat) Fault Refusal
  | 0, s, popped => .next (s, popped)
  | n + 1, s, popped =>
    if isHalted s then .next (s, popped)
    else
      match harnessTurn s popped with
      | .next (t, popped') => harnessRun n t popped'
      | .fault f => .fault f
      | .refused r => .refused r

/-- `n` ticks with no host operation between them. -/
def ticks : Nat → State → Result
  | 0, s => .next s
  | n + 1, s => andThen (step s) (ticks n)

end Sys2Proof.Machine
end

