-- ==== Sys2Proof/WellFormed.lean ====
section
/-! DEFINITION. The checks on terms: which configurations, instructions, prefetch buffers and byte strings are
well formed. An operand is a byte by its type, and every byte is a legal operand (30_encoding.md R62). -/

namespace Sys2Proof

/-- The pairs of width and memory size the spec accepts (00_scope.md R6, R8; 92_eei_decisions.md D12). -/
def legalConfig (bits memsize : Nat) : Bool :=
  [4, 8, 16, 32, 64].contains bits && decide (1 ≤ memsize)

/-- The address an instruction names in its operand byte, if its operand is an address (30_encoding.md R57). -/
def Instr.addressOperand? : Instr → Option Byte
  | .load x => some x
  | .save x => some x
  | .jump x => some x
  | .jumpz x => some x
  | .jumpnz x => some x
  | .jumpo x => some x
  | .nop => none
  | .swap => none
  | .add => none
  | .sub => none
  | .write => none
  | .read => none
  | .halt => none
  | .loadi => none
  | .savei => none
  | .addl _ => none
  | .subl _ => none
  | .addlb _ => none
  | .set _ => none
  | .setb _ => none

/-- An instruction is well formed for a machine of `memsize` cells when its address operand, if it has one,
names a cell. Only for `memsize < 256` can this fail, and it is the one thing about an instruction that the
spec leaves without meaning (30_encoding.md R62; 40_execution_cycle.md R72). -/
def Instr.wellFormed (memsize : Nat) (i : Instr) : Bool :=
  match i.addressOperand? with
  | some x => decide (x.toNat < memsize)
  | none => true

/-- A prefetch buffer is well formed when a format N opcode comes with the operand 0 (10_state.md R21, R28). -/
def bufferWellFormed (ir opnd : Byte) : Bool := hasOperand ir || opnd == 0

/-- A byte string is one whole instruction: one byte, or two when bit 7 of the first is set (30_encoding.md R54). -/
def oneInstruction : List Byte → Bool
  | [] => false
  | op :: rest => if hasOperand op then rest.length == 1 else rest.isEmpty

end Sys2Proof
end

