-- ==== Sys2Proof/Safety.lean ====
section
/-! DEFINITION. What a good state and a good run are, in the terms the statements use: the invariants of 10_state.md
R28, the reachable states, how a run ends, and the addresses a tick stores to. -/

namespace Sys2Proof.Machine

/-- The invariants of 10_state.md R28, and the canonical form of memory with every listed address a cell that
exists. A byte holds a value in `[0, 255]` by its type. -/
structure StateInv (s : State) : Prop where
  /-- `0 ≤ pc < memsize` -/
  pc_lt : s.pc < s.cfg.memsize
  /-- memory is in canonical form -/
  mem_wf : s.mem.wf = true
  /-- memory lists only cells that exist -/
  mem_within : s.mem.within s.cfg.memsize = true
  /-- `A ∈ [0, modulus)` -/
  regA_lt : s.regA < s.cfg.modulus
  /-- `B ∈ [0, modulus)` -/
  regB_lt : s.regB < s.cfg.modulus
  /-- `faulted ⇒ halted` -/
  faulted_halted : s.faulted = true → s.halted = true
  /-- every element of `outQ` is `< modulus` -/
  outQ_lt : ∀ v ∈ s.outQ, v < s.cfg.modulus
  /-- `opnd = 0` whenever `ir[7] = 0` -/
  buffer_wf : bufferWellFormed s.ir s.opnd = true

/-- The states a machine of this configuration, start mode and `M0` reaches: after construction, and after any
host operation on a reachable state (10_state.md R33, R37). -/
inductive Reachable (cfg : Config) (mode : StartMode) (m0 : Nat → Byte) : State → Prop where
  | constructed : Reachable cfg mode m0 (construct cfg mode m0)
  | afterOp {s t : State} {op : HostOp} {r : HostResult} :
      Reachable cfg mode m0 s → hostStep mode op s = .returns t r → Reachable cfg mode m0 t

/-- A run ends at a halted state (40_execution_cycle.md R73). -/
abbrev Ended (s : State) : Prop := s.halted = true

/-- The run ended cleanly (40_execution_cycle.md R73). -/
abbrev EndedCleanly (s : State) : Prop := s.halted = true ∧ s.faulted = false

/-- The run ended in the architectural fault (40_execution_cycle.md R73). -/
abbrev EndedInFault (s : State) : Prop := s.halted = true ∧ s.faulted = true

/-- The instruction the next tick executes (40_execution_cycle.md R68). -/
def buffered (s : State) : Decoded := decode s.ir s.opnd

/-- The instruction raises the architectural fault in `s` (60_exceptions.md R113). -/
def raisesFault (i : Instr) (s : State) : Bool :=
  match i with
  | .loadi => !decide (indexedInRange s)
  | .savei => !decide (indexedInRange s)
  | _ => false

/-- The one cell an instruction stores to in `s`, if it stores (20_memory.md R39; 44_memory_access.md R95, R97). -/
def storeAddress (i : Instr) (s : State) : Option Nat :=
  match i with
  | .save addr => some (absoluteAddress addr)
  | .savei => if indexedInRange s then some (indexedAddress s) else none
  | _ => none

/-- The one cell an instruction reads or writes with no check of its own, so that an address beyond memory is
`undefined` (44_memory_access.md R93, R96, R97). -/
def uncheckedAddress (i : Instr) : Option Nat :=
  match i with
  | .load addr => some (absoluteAddress addr)
  | .save addr => some (absoluteAddress addr)
  | _ => none

/-- The jump target an instruction writes to `pc` in `s`, if it is a taken jump (43_control.md R87). -/
def takenTarget (i : Instr) (s : State) : Option Nat :=
  match i with
  | .jump addr => some (absoluteAddress addr)
  | .jumpz addr => if s.regA = 0 then some (absoluteAddress addr) else none
  | .jumpnz addr => if s.regA ≠ 0 then some (absoluteAddress addr) else none
  | .jumpo addr => if s.overflow then some (absoluteAddress addr) else none
  | _ => none

/-- The ADD family: the instructions that write `overflow` (10_state.md R22). -/
def writesOverflow (i : Instr) : Bool :=
  [Mnemonic.add, .sub, .addl, .subl, .addlb].contains i.mnemonic

/-- The `writes A` column of 10_state.md R15. -/
def writesA (i : Instr) : Bool :=
  [Mnemonic.swap, .add, .sub, .addl, .subl, .set, .read, .loadi, .load].contains i.mnemonic

/-- The `reads A` column of 10_state.md R15. -/
def readsA (i : Instr) : Bool :=
  [Mnemonic.swap, .add, .sub, .addl, .subl, .write, .savei, .save, .jumpz, .jumpnz].contains i.mnemonic

/-- The `writes B` column of 10_state.md R16. -/
def writesB (i : Instr) : Bool := [Mnemonic.swap, .addlb, .setb].contains i.mnemonic

/-- The `reads B` column of 10_state.md R16. -/
def readsB (i : Instr) : Bool :=
  [Mnemonic.swap, .add, .sub, .addlb, .loadi, .savei].contains i.mnemonic

end Sys2Proof.Machine
end

