-- ==== Sys2Proof/Certificates/Slice0/Obligations.lean ====
section
/-! DEFINITION. The statements for the provers. A result statement gives the whole next state, so it is the
instruction's completion and its frame too: what the equation does not name is unchanged. -/

open Sys2Proof Sys2Proof.Machine

/-! ### Encoding -/

/-- Decoding what the encoder writes gives the instruction back, with any operand and any bytes after it, and decoding
an encoded program gives the program back (30_encoding.md, sections 1 and 3). -/
def Obligations.DecodeOfEncodeGivesInstruction : Prop :=
  (∀ (i : Instr) (rest : List Byte), decodeBytes (encode i ++ rest) = .ok (.instr i, rest)) ∧
  (∀ program : List Instr, decodeAll (program.flatMap encode) = .ok (program.map .instr))

/-- No two byte strings decode to one instruction (30_encoding.md, sections 1 and 3). -/
def Obligations.DecodedBytesAreTheEncoding : Prop :=
  ∀ (bytes : List Byte) (i : Instr) (rest : List Byte),
    decodeBytes bytes = .ok (.instr i, rest) → bytes = encode i ++ rest

/-- R59: the InstructionTable has exactly these 20 entries, and each operand column agrees with bit 7 of its opcode. -/
def Obligations.TableHasTheSpecsTwentyRows : Prop :=
  (instructionTable.map fun r => (r.opcode.toNat, r.mnemonic.text, r.operand)) =
    [(0x00, "NOP", .none), (0x01, "SWAP", .none), (0x02, "ADD", .none), (0x03, "SUB", .none), (0x04, "WRITE", .none),
     (0x05, "READ", .none), (0x06, "HALT", .none), (0x07, "LOADI", .none), (0x08, "SAVEI", .none),
     (0x80, "LOAD", .address), (0x81, "SAVE", .address), (0x92, "JUMP", .address), (0x93, "JUMPZ", .address),
     (0x94, "JUMPNZ", .address), (0x95, "JUMPO", .address), (0xA0, "ADDL", .literal), (0xA1, "SUBL", .literal),
     (0xA2, "ADDLB", .literal), (0xA6, "SET", .literal), (0xA7, "SETB", .literal)] ∧
  ∀ r ∈ instructionTable, (r.operand ≠ .none ↔ hasOperand r.opcode = true)

/-- R60: decoding is the table row of the opcode if there is one, and `Unassigned` otherwise; the assembler finds the
same rows by mnemonic. -/
def Obligations.DecodeFollowsTheTable : Prop :=
  (∀ (ir opnd : Byte), ∀ r ∈ instructionTable, r.opcode = ir → decode ir opnd = .instr (r.mnemonic.instr opnd)) ∧
  (∀ (ir opnd : Byte), (∀ r ∈ instructionTable, r.opcode ≠ ir) → decode ir opnd = .unassigned ir) ∧
  (∀ r ∈ instructionTable, lookupMnemonic r.mnemonic.text.toList = some r)

/-- R61: the unassigned opcodes are these 119 and 117, they execute as no-ops, and bit 7 gives their length. -/
def Obligations.UnassignedOpcodesAreNoOps : Prop :=
  (∀ op opnd : Byte, decode op opnd = .unassigned op ↔
    (0x09 ≤ op.toNat ∧ op.toNat ≤ 0x7F) ∨ (0x82 ≤ op.toNat ∧ op.toNat ≤ 0x91) ∨ (0x96 ≤ op.toNat ∧ op.toNat ≤ 0x9F) ∨
    (0xA3 ≤ op.toNat ∧ op.toNat ≤ 0xA5) ∨ 0xA8 ≤ op.toNat) ∧
  ((List.range 256).filter fun n => (lookupOpcode (BitVec.ofNat 8 n)).isNone && !hasOperand (BitVec.ofNat 8 n)).length = 119 ∧
  ((List.range 256).filter fun n => (lookupOpcode (BitVec.ofNat 8 n)).isNone && hasOperand (BitVec.ofNat 8 n)).length = 117 ∧
  (∀ (op x : Byte) (rest : List Byte), lookupOpcode op = none →
    decodeBytes (op :: x :: rest) = .ok (.unassigned op, if hasOperand op then rest else x :: rest)) ∧
  (∀ (op : Byte) (s : State), s.halted = false → buffered s = .unassigned op → s.pc < s.cfg.memsize →
    executeBuffer s = .next s ∧
    ∃ t, step s = .next t ∧ t = { s with outputWasWritten := false, pc := t.pc, ir := t.ir, opnd := t.opnd } ∧
      t.pc = if hasOperand (s.mem.read s.pc) then (s.pc + 2) % s.cfg.memsize else (s.pc + 1) % s.cfg.memsize)

/-- A few words written out from 30_encoding.md section 3 decode to their instructions. -/
def Obligations.WrittenOutWordsDecode : Prop :=
  decodeTableWord 8 0b00000010 = some .add ∧ decodeTableWord 8 0b00000101 = some .read ∧
  decodeTableWord 8 0b00000110 = some .halt ∧ decodeTableWord 8 0b00001000 = some .savei ∧
  decodeTableWord 16 0b00110000_10000001 = some (.save 0x30) ∧ decodeTableWord 16 0b00000100_10010010 = some (.jump 0x04) ∧
  decodeTableWord 16 0b00010000_10100001 = some (.subl 0x10) ∧ decodeTableWord 16 0b11111111_10100110 = some (.set 0xFF)

/-- The accepted configurations are the spec's, and `modulus` and `maxint` follow from `W` (00_scope.md section 3;
the refusal of others is the spec's decision D12). -/
def Obligations.AcceptedConfigurations : Prop :=
  ∀ bits memsize : Nat,
    ((Config.make? bits memsize).isSome = true ↔ legalConfig bits memsize = true) ∧
    ∀ c, Config.make? bits memsize = some c →
      c.width.bits = bits ∧ c.memsize = memsize ∧ c.modulus = 2 ^ bits ∧ c.maxint = 2 ^ bits - 1

/-! ### Instructions -/

/-- R76: NOP has no effect; it behaves as an unassigned format N opcode; a tick that executes it changes only
`outputWasWritten` (to false), `pc`, `ir` and `opnd`. -/
def Obligations.NopHasNoEffect : Prop :=
  encode .nop = [0x00] ∧
  (∀ s : State, exec .nop s = .next s) ∧
  (∀ op s, execUnassigned op s = exec .nop s) ∧
  (∀ s : State, s.halted = false → buffered s = .instr .nop → s.pc < s.cfg.memsize →
    ∃ t, step s = .next t ∧ t = { s with outputWasWritten := false, pc := t.pc, ir := t.ir, opnd := t.opnd })

/-- R77: SWAP exchanges A and B; twice it restores them. -/
def Obligations.SwapExchangesRegisters : Prop :=
  encode .swap = [0x01] ∧
  (∀ s : State, exec .swap s = .next { s with regA := s.regB, regB := s.regA }) ∧
  (∀ s : State, s.regA = s.regB → exec .swap s = .next s) ∧
  (∀ s : State, andThen (exec .swap s) (exec .swap) = .next s)

/-- R78: ADD writes the wrapped sum into A and, on every execution, the overflow flag; nothing else. -/
def Obligations.AddWrapsAndWritesOverflow : Prop :=
  encode .add = [0x02] ∧
  (∀ s : State, exec .add s = .next { s with
    regA := (s.regA + s.regB) % s.cfg.modulus, overflow := decide (s.regA + s.regB > s.cfg.maxint) }) ∧
  (∀ s : State, s.regA + s.regB = s.cfg.maxint → exec .add s = .next { s with regA := s.cfg.maxint, overflow := false }) ∧
  (∀ s : State, s.regA + s.regB = s.cfg.modulus → exec .add s = .next { s with regA := 0, overflow := true }) ∧
  (∀ s : State, s.cfg.width = .w8 → s.regA = 200 → s.regB = 100 → exec .add s = .next { s with regA := 44, overflow := true })

/-- R79: SUB writes the wrapped difference into A and the borrow into the overflow flag; nothing else. -/
def Obligations.SubWrapsAndWritesOverflow : Prop :=
  encode .sub = [0x03] ∧
  (∀ s : State, exec .sub s = .next { s with
    regA := (((s.regA : Int) - (s.regB : Int)) % (s.cfg.modulus : Int)).toNat, overflow := decide (s.regA < s.regB) }) ∧
  (∀ s : State, s.regA = s.regB → exec .sub s = .next { s with regA := 0, overflow := false }) ∧
  (∀ s : State, s.regA = 0 → s.regB = 1 → exec .sub s = .next { s with regA := s.cfg.maxint, overflow := true }) ∧
  (∀ s : State, s.cfg.width = .w8 → s.regA = 5 → s.regB = 7 → exec .sub s = .next { s with regA := 254, overflow := true })

/-- R80: ADDL adds the literal, unreduced, to A and writes the overflow flag; nothing else. -/
def Obligations.AddlWrapsAndWritesOverflow : Prop :=
  (∀ imm, encode (.addl imm) = [0xA0, imm]) ∧
  (∀ imm s, exec (.addl imm) s = .next { s with
    regA := (s.regA + imm.toNat) % s.cfg.modulus, overflow := decide (s.regA + imm.toNat > s.cfg.maxint) }) ∧
  (∀ s : State, s.regA < s.cfg.modulus → exec (.addl 0) s = .next { s with overflow := false } ∧
    exec (.subl 0) s = .next { s with overflow := false }) ∧
  (∀ s : State, s.regB < s.cfg.modulus → exec (.addlb 0) s = .next { s with overflow := false }) ∧
  (∀ s : State, s.cfg.width = .w4 → s.regA = 1 → exec (.addl 0x20) s = .next { s with regA := 1, overflow := true }) ∧
  (∀ s : State, s.cfg.width = .w8 → s.regA = 0xFF → exec (.addl 0x01) s = .next { s with regA := 0, overflow := true })

/-- R81: SUBL subtracts the literal, unreduced, from A and writes the borrow into the overflow flag; nothing else. -/
def Obligations.SublWrapsAndWritesOverflow : Prop :=
  (∀ imm, encode (.subl imm) = [0xA1, imm]) ∧
  (∀ imm s, exec (.subl imm) s = .next { s with
    regA := (((s.regA : Int) - (imm.toNat : Int)) % (s.cfg.modulus : Int)).toNat
    overflow := decide (s.regA < imm.toNat) }) ∧
  (∀ s : State, s.regA < s.cfg.modulus → exec (.subl 0) s = .next { s with overflow := false }) ∧
  (∀ s : State, s.cfg.width = .w16 → s.regA = 0 → exec (.subl 0x01) s = .next { s with regA := 0xFFFF, overflow := true }) ∧
  (∀ s : State, s.cfg.width = .w4 → s.regA = 3 → exec (.subl 0x20) s = .next { s with regA := 3, overflow := true }) ∧
  (∀ s : State, s.cfg.width = .w8 → s.regA = 0x10 → exec (.subl 0x10) s = .next { s with regA := 0, overflow := false })

/-- ADDLB adds the literal to B, leaves A alone and writes the overflow flag. That B is both source and destination is
the spec's decision D7 (41_alu_register.md, ADDLB). -/
def Obligations.AddlbAddsToB : Prop :=
  ∀ imm s, exec (.addlb imm) s = .next { s with
    regB := (s.regB + imm.toNat) % s.cfg.modulus, overflow := decide (s.regB + imm.toNat > s.cfg.maxint) }

/-- SET and SETB write the literal reduced modulo `modulus`, and nothing else; for `W ≥ 8` the literal itself. The
reduction for `W = 4` is the spec's decision D5 (41_alu_register.md, SET and SETB). -/
def Obligations.SetAndSetbWriteTheLiteral : Prop :=
  (∀ imm s, exec (.set imm) s = .next { s with regA := imm.toNat % s.cfg.modulus }) ∧
  (∀ imm s, exec (.setb imm) s = .next { s with regB := imm.toNat % s.cfg.modulus }) ∧
  (∀ (imm : Byte) s, s.cfg.width ≠ .w4 → exec (.set imm) s = .next { s with regA := imm.toNat } ∧
    exec (.setb imm) s = .next { s with regB := imm.toNat }) ∧
  (∀ s : State, exec (.set 0) s = .next { s with regA := 0 })

/-- R85: WRITE puts A as it is at the tail of the output queue and sets `outputWasWritten`; the next executing tick
clears the flag; two WRITEs push two values. -/
def Obligations.WriteAppendsA : Prop :=
  encode .write = [0x04] ∧
  (∀ s : State, exec .write s = .next { s with outQ := s.outQ ++ [s.regA], outputWasWritten := true }) ∧
  (∀ (s t : State), s.halted = false → buffered s = .instr .write → step s = .next t →
    t.outQ = s.outQ ++ [s.regA] ∧ t.regA = s.regA ∧ t.outputWasWritten = true) ∧
  (∀ (s t : State), s.halted = false → buffered s ≠ .instr .write → step s = .next t → t.outputWasWritten = false) ∧
  (∀ s : State, andThen (exec .write s) (exec .write) =
    .next { s with outQ := s.outQ ++ [s.regA, s.regA], outputWasWritten := true })

/-- R86: READ takes the head of the input queue reduced into `[0, modulus)`, or 0 when the queue is empty; it never
stops. -/
def Obligations.ReadTakesHeadOrZero : Prop :=
  encode .read = [0x05] ∧
  (∀ s v rest, s.inQ = v :: rest →
    exec .read s = .next { s with regA := (v % (s.cfg.modulus : Int)).toNat, inQ := rest }) ∧
  (∀ s : State, s.inQ = [] → exec .read s = .next { s with regA := 0 }) ∧
  (∀ s rest, s.cfg.width = .w8 → s.inQ = 300 :: rest → exec .read s = .next { s with regA := 44, inQ := rest }) ∧
  (∀ s rest, s.cfg.width = .w8 → s.inQ = -1 :: rest → exec .read s = .next { s with regA := 255, inQ := rest })

/-- HALT sets `halted` and nothing else; step 3 still runs in that tick, and every later tick changes nothing
(43_control.md, HALT). That the fetch runs in the halting tick and that later ticks are no-ops are the spec's
decisions D2 and D1. -/
def Obligations.HaltSetsHalted : Prop :=
  (∀ s : State, exec .halt s = .next { s with halted := true }) ∧
  (∀ s : State, s.halted = false → buffered s = .instr .halt → s.pc < s.cfg.memsize →
    step s = .next (refill { s with halted := true, outputWasWritten := false }) ∧
    ∀ n, ticks (n + 1) s = .next (refill { s with halted := true, outputWasWritten := false }))

/-- JUMP writes its operand to `pc`; JUMPZ does iff A is 0, JUMPNZ iff it is not, JUMPO iff the overflow flag is set;
a jump not taken changes nothing, and a taken one nothing else (43_control.md, section 2). -/
def Obligations.JumpsWriteTheirTargets : Prop :=
  (∀ addr s, exec (.jump addr) s = .next { s with pc := addr.toNat }) ∧
  (∀ addr s, exec (.jumpz addr) s = .next { s with pc := if s.regA = 0 then addr.toNat else s.pc }) ∧
  (∀ addr s, exec (.jumpnz addr) s = .next { s with pc := if s.regA = 0 then s.pc else addr.toNat }) ∧
  (∀ addr s, exec (.jumpo addr) s = .next { s with pc := if s.overflow then addr.toNat else s.pc })

/-- LOADI with B below `memsize` reads the cell at the whole value of B into A, and changes nothing else
(44_memory_access.md, LOADI). The reduction for `W = 4` is the spec's decision D5. -/
def Obligations.LoadiReadsTheCellAtB : Prop :=
  ∀ s : State, s.regB < s.cfg.memsize →
    exec .loadi s = .next { s with regA := (s.mem.read s.regB).toNat % s.cfg.modulus }

/-- SAVEI with B below `memsize` stores the low byte of A at the whole value of B, and changes no other cell and
nothing else (44_memory_access.md, SAVEI). That it is the low byte for `W > 8` is the spec's decision D4. -/
def Obligations.SaveiStoresTheLowByteAtB : Prop :=
  ∀ s : State, s.regB < s.cfg.memsize →
    ∃ t, exec .savei s = .next t ∧ t = { s with mem := t.mem } ∧
      t.mem.read (indexedAddress s) = BitVec.ofNat 8 (s.regA % 256) ∧
      ∀ x, x ≠ indexedAddress s → t.mem.read x = s.mem.read x

/-- R113: LOADI and SAVEI raise the architectural fault when `B ≥ memsize`, which sets `faulted` and `halted` and
changes nothing else; no other instruction, and no other value of B, changes `faulted`. -/
def Obligations.IndexedAccessBeyondMemoryFaults : Prop :=
  (∀ s : State, s.cfg.memsize ≤ s.regB →
    exec .loadi s = .next { s with faulted := true, halted := true } ∧
    exec .savei s = .next { s with faulted := true, halted := true }) ∧
  (∀ i s t, exec i s = .next t → t.faulted ≠ s.faulted → (i = .loadi ∨ i = .savei) ∧ s.cfg.memsize ≤ s.regB)

/-- LOAD of a cell that exists reads it into A, and changes nothing else (44_memory_access.md, LOAD). The reduction for
`W = 4` is the spec's decision D5. -/
def Obligations.LoadReadsTheNamedCell : Prop :=
  ∀ addr s, addr.toNat < s.cfg.memsize →
    exec (.load addr) s = .next { s with regA := (s.mem.read addr.toNat).toNat % s.cfg.modulus }

/-- SAVE to a cell that exists stores the low byte of A there, and changes no other cell and nothing else
(44_memory_access.md, SAVE). -/
def Obligations.SaveStoresTheLowByte : Prop :=
  ∀ addr s, addr.toNat < s.cfg.memsize →
    ∃ t, exec (.save addr) s = .next t ∧ t = { s with mem := t.mem } ∧
      t.mem.read (absoluteAddress addr) = BitVec.ofNat 8 (s.regA % 256) ∧
      ∀ x, x ≠ absoluteAddress addr → t.mem.read x = s.mem.read x

/-! ### The cycle -/

/-- A step runs the decoded instruction: outside the halted states it clears `outputWasWritten`, runs `exec` of the
instruction in the prefetch buffer, and fetches (40_execution_cycle.md, sections 1 and 2). The third clause is about the
model's own device `withFetchWord` (log entry 4, DEDUCED): an instruction it places is the one the next step runs. -/
def Obligations.StepRunsTheBufferedInstruction : Prop :=
  (∀ (s : State) i, s.halted = false → decode s.ir s.opnd = .instr i →
    step s = andThen (exec i { s with outputWasWritten := false }) fetch) ∧
  (∀ (s : State) op, s.halted = false → decode s.ir s.opnd = .unassigned op →
    step s = fetch { s with outputWasWritten := false }) ∧
  (∀ (s : State) nbits w i, s.halted = false → decodeTableWord nbits w = some i →
    step (s.withFetchWord nbits w) =
      andThen (exec i { s.withFetchWord nbits w with outputWasWritten := false }) fetch)

/-- R70: the fetch reads one byte at `pc` into `ir`, and one more into `opnd` if bit 7 of the first is set, else `opnd`
becomes 0; `pc` advances past each byte modulo `memsize`; at a `pc` beyond memory it is undefined. Step 3 of a tick and
the reset prefetch are this one procedure. -/
def Obligations.FetchFillsTheBuffer : Prop :=
  (∀ s : State, s.pc < s.cfg.memsize → hasOperand (s.mem.read s.pc) = true →
    fetch s = .next { s with
      ir := s.mem.read s.pc
      opnd := s.mem.read ((s.pc + 1) % s.cfg.memsize)
      pc := ((s.pc + 1) % s.cfg.memsize + 1) % s.cfg.memsize }) ∧
  (∀ s : State, s.pc < s.cfg.memsize → hasOperand (s.mem.read s.pc) = false →
    fetch s = .next { s with ir := s.mem.read s.pc, opnd := 0, pc := (s.pc + 1) % s.cfg.memsize }) ∧
  (∀ s : State, s.cfg.memsize ≤ s.pc → fetch s = .fault (.fetchOutOfRange s.pc)) ∧
  (∀ s : State, s.halted = false → step s = andThen (executeBuffer { s with outputWasWritten := false }) fetch) ∧
  (∀ s : State, fetch (hostReset .bubble s) = .next (hostReset .resetPrefetch s))

/-- Where memory at `pc` holds an instruction's encoding, the fetch leaves that instruction in the prefetch buffer and
`pc` just past it, across the wrap to address 0 too (40_execution_cycle.md section 2; 30_encoding.md section 1). -/
def Obligations.FetchedEncodingIsBuffered : Prop :=
  ∀ (s : State) i, s.pc < s.cfg.memsize →
    (∀ k (h : k < (encode i).length), s.mem.read ((s.pc + k) % s.cfg.memsize) = (encode i)[k]) →
    ∃ t, fetch s = .next t ∧ buffered t = .instr i ∧ t.pc = (s.pc + (encode i).length) % s.cfg.memsize ∧
      t = { s with pc := t.pc, ir := t.ir, opnd := t.opnd }

/-- A taken jump to a cell that exists leaves the target's instruction in the prefetch buffer in the same tick, so it
executes on the next one; a target beyond memory has no successor state, the spec's decision D6 (43_control.md
section 1). -/
def Obligations.TakenJumpFetchesItsTarget : Prop :=
  ∀ (s : State) i a, s.halted = false → buffered s = .instr i → takenTarget i s = some a →
    (a < s.cfg.memsize → ∃ t, step s = .next t ∧
      t = { s with outputWasWritten := false, pc := t.pc, ir := t.ir, opnd := t.opnd } ∧
      t.ir = s.mem.read a ∧
      t.opnd = (if hasOperand t.ir then s.mem.read ((a + 1) % s.cfg.memsize) else 0) ∧
      t.pc = (if hasOperand t.ir then (a + 2) % s.cfg.memsize else (a + 1) % s.cfg.memsize)) ∧
    (s.cfg.memsize ≤ a → step s = .fault (.fetchOutOfRange a))

/-- Once halted, a machine stays as it is through any number of ticks, and the harness loop stops at once. That a tick
after halt is a no-op is the spec's decision D1 (40_execution_cycle.md section 1). -/
def Obligations.HaltedMachineStaysAsItIs : Prop :=
  ∀ s : State, s.halted = true → ∀ n popped, ticks n s = .next s ∧ harnessRun n s popped = .next (s, popped)

/-- A store is seen by the fetch of the same tick, whichever of the fetched bytes it hits, and changes no other cell
(20_memory.md sections 3 and 6: the executed instruction's access, then the fetch). That SAVEI stores the low byte of A
for `W > 8` is the spec's decision D4. -/
def Obligations.StoreIsSeenByTheSameTicksFetch : Prop :=
  ∀ (s : State) i a, s.halted = false → buffered s = .instr i → storeAddress i s = some a → a < s.cfg.memsize →
    s.pc < s.cfg.memsize →
    ∃ t, step s = .next t ∧ t.mem.read a = BitVec.ofNat 8 (s.regA % 256) ∧
      (∀ x, x ≠ a → t.mem.read x = s.mem.read x) ∧
      t.ir = t.mem.read s.pc ∧
      t.opnd = if hasOperand t.ir then t.mem.read ((s.pc + 1) % s.cfg.memsize) else 0

/-! ### Invariants -/

/-- Every step keeps the invariants, from every state that meets them: those of 10_state.md section 7, which rest on the
spec's decisions D4, D5 and D6, and the canonical form of memory, the model's choice of log entry 13. -/
def Obligations.StepKeepsTheInvariants : Prop :=
  ∀ (s t : State), StateInv s → step s = .next t → StateInv t

/-- `State.reset` meets the invariants. The state is the model's choice of default parameters and all-zero memory (log
entries 2 and 3), and the canonical form of memory among the invariants is the model's too (log entry 13). -/
def Obligations.ResetMeetsTheInvariants : Prop := StateInv State.reset

/-- Every host operation, a tick among them, keeps the invariants and the configuration, from every state that meets the
invariants; construction meets them; so every reachable state does (10_state.md sections 7 and 10). The invariants rest
on the spec's decisions D4, D5 and D6, and the canonical form of memory among them is the model's choice of log
entry 13. -/
def Obligations.ReachableStatesMeetTheInvariants : Prop :=
  (∀ mode op s t r, StateInv s → hostStep mode op s = .returns t r → StateInv t ∧ t.cfg = s.cfg) ∧
  (∀ cfg mode m0, StateInv (construct cfg mode m0) ∧ (construct cfg mode m0).cfg = cfg) ∧
  (∀ cfg mode m0 s, Reachable cfg mode m0 s → StateInv s ∧ s.cfg = cfg)

/-- What reset leaves, in both start modes, and that memory and the configuration stay (10_state.md section 11). The
prefetch buffer and `pc` are the spec's decision D3, and `State.reset` is the machine after construction with default
parameters and, the model's choice of log entry 2, all-zero memory. -/
def Obligations.ResetLeavesTheSpecsValues : Prop :=
  (∀ s : State, hostReset .bubble s =
    { cfg := s.cfg, mem := s.mem, regA := 0, regB := 0, pc := 0, ir := 0, opnd := 0, overflow := false, halted := false,
      faulted := false, outputWasWritten := false, inQ := [], outQ := [] }) ∧
  (∀ s : State, hostReset .resetPrefetch s =
    { cfg := s.cfg, mem := s.mem, regA := 0, regB := 0
      pc := if hasOperand (s.mem.read 0) then 2 % s.cfg.memsize else 1 % s.cfg.memsize
      ir := s.mem.read 0
      opnd := if hasOperand (s.mem.read 0) then s.mem.read (1 % s.cfg.memsize) else 0
      overflow := false, halted := false, faulted := false, outputWasWritten := false, inQ := [], outQ := [] }) ∧
  (∀ cfg mode m0 a, a < cfg.memsize → (construct cfg mode m0).mem.read a = m0 a) ∧
  State.reset = construct {} .resetPrefetch fun _ => 0

/-! ### What each component is written and read by -/

/-- `overflow` is written by the ADD family on every execution, and by no other instruction, so it keeps its value across
any number of ticks that execute none of the family, the unassigned opcodes and the fetches included; JUMPO is the only
instruction that reads it; reset sets it to false (10_state.md section 5). That ADDLB's sum is B plus the literal is the
spec's decision D7. -/
def Obligations.OverflowIsTheAddFamilys : Prop :=
  (∀ (s t : State), exec .add s = .next t → t.overflow = decide (s.regA + s.regB > s.cfg.maxint)) ∧
  (∀ (s t : State), exec .sub s = .next t → t.overflow = decide ((s.regA : Int) - s.regB < 0)) ∧
  (∀ imm s t, exec (.addl imm) s = .next t → t.overflow = decide (s.regA + imm.toNat > s.cfg.maxint)) ∧
  (∀ (imm : Byte) s t, exec (.subl imm) s = .next t → t.overflow = decide ((s.regA : Int) - imm.toNat < 0)) ∧
  (∀ imm s t, exec (.addlb imm) s = .next t → t.overflow = decide (s.regB + imm.toNat > s.cfg.maxint)) ∧
  (∀ i s t, writesOverflow i = false → exec i s = .next t → t.overflow = s.overflow) ∧
  (∀ n s t, ticks n s = .next t →
    (∀ k u i, k < n → ticks k s = .next u → u.halted = false → buffered u = .instr i → writesOverflow i = false) →
    t.overflow = s.overflow) ∧
  (∀ i s f, i.mnemonic ≠ .jumpo → exec i { s with overflow := f } =
    mapNext (fun t => if writesOverflow i then t else { t with overflow := f }) (exec i s)) ∧
  (∀ addr (s : State) f, exec (.jumpo addr) { s with overflow := f } =
    .next { s with overflow := f, pc := if f then addr.toNat else s.pc }) ∧
  (∀ mode s, (hostReset mode s).overflow = false)

/-- R18: only the fetch, a taken jump and reset write `pc`; host load and the queue operations do not. -/
def Obligations.ProgramCounterHasFourWriters : Prop :=
  (∀ i s t, exec i s = .next t → t.pc = (takenTarget i s).getD s.pc) ∧
  (∀ op s, execUnassigned op s = .next s) ∧
  (∀ (s t : State), fetch s = .next t →
    t.pc = if hasOperand (s.mem.read s.pc) then (s.pc + 2) % s.cfg.memsize else (s.pc + 1) % s.cfg.memsize) ∧
  (∀ mode op s t r, hostStep mode op s = .returns t r → op ≠ .tick → op ≠ .reset → t.pc = s.pc) ∧
  (∀ s : State, (hostReset .bubble s).pc = 0) ∧
  (∀ (s t : State), s.pc + 1 = s.cfg.memsize → fetch s = .next t → hasOperand t.ir = true → t.opnd = s.mem.read 0)

/-- R15: which instructions write A and which read it. What does not write A leaves it, and what does not read A does
the same whatever A holds. What writes A gives it another value somewhere, and for what reads A the value matters
somewhere. LOADI does not write A when it faults; an unassigned opcode does neither. -/
def Obligations.RegisterAHasTheSpecsWritersAndReaders : Prop :=
  (∀ i s t, exec i s = .next t → writesA i = false ∨ raisesFault i s = true → t.regA = s.regA) ∧
  (∀ (s t : State), exec .swap s = .next t → t.regA = s.regB) ∧
  (∀ (s t : State), exec .read s = .next t → s.inQ = [] → t.regA = 0) ∧
  (∀ i s v, readsA i = false → exec i { s with regA := v } =
    mapNext (fun t => if writesA i && !raisesFault i s then t else { t with regA := v }) (exec i s)) ∧
  (∀ i, writesA i = true → ∃ x s t, StateInv s ∧ exec (i.mnemonic.instr x) s = .next t ∧ t.regA ≠ s.regA) ∧
  (∀ i, readsA i = true → ∃ s v, StateInv s ∧ exec i { s with regA := v } ≠
    mapNext (fun t => if writesA i then t else { t with regA := v }) (exec i s)) ∧
  (∀ op s, execUnassigned op s = .next s)

/-- Which instructions write B and which read it (10_state.md section 2). What does not write B leaves it, and what does
not read B does the same whatever B holds. What writes B gives it another value somewhere, and for what reads B the value
matters somewhere. An unassigned opcode does neither. That ADDLB reads and writes B is the spec's decision D7. -/
def Obligations.RegisterBHasTheSpecsWritersAndReaders : Prop :=
  (∀ i s t, exec i s = .next t → writesB i = false → t.regB = s.regB) ∧
  (∀ (s t : State), exec .swap s = .next t → t.regB = s.regA) ∧
  (∀ i s v, readsB i = false → exec i { s with regB := v } =
    mapNext (fun t => if writesB i then t else { t with regB := v }) (exec i s)) ∧
  (∀ i, writesB i = true → ∃ x s t, StateInv s ∧ exec (i.mnemonic.instr x) s = .next t ∧ t.regB ≠ s.regB) ∧
  (∀ i, readsB i = true → ∃ s v, StateInv s ∧ v < s.cfg.modulus ∧ exec i { s with regB := v } ≠
    mapNext (fun t => if writesB i then t else { t with regB := v }) (exec i s)) ∧
  (∀ op s, execUnassigned op s = .next s)

/-- No instruction writes the prefetch buffer or the configuration, and no operation changes the configuration
(10_state.md sections 4 and 10). -/
def Obligations.BufferAndConfigurationAreNoInstructions : Prop :=
  (∀ i s t, exec i s = .next t → t.ir = s.ir ∧ t.opnd = s.opnd ∧ t.cfg = s.cfg) ∧
  (∀ mode op s t r, hostStep mode op s = .returns t r → t.cfg = s.cfg) ∧
  (∀ mode op s t r, hostStep mode op s = .returns t r → op ≠ .tick → op ≠ .reset → t.ir = s.ir ∧ t.opnd = s.opnd)

/-- Only READ removes input, from the head; only WRITE adds output, at the tail (10_state.md section 6). -/
def Obligations.QueuesHaveOneInstructionEach : Prop :=
  ∀ i s t, exec i s = .next t →
    (i ≠ .read → t.inQ = s.inQ) ∧ (i = .read → t.inQ = s.inQ.tail) ∧
    (i ≠ .write → t.outQ = s.outQ ∧ t.outputWasWritten = s.outputWasWritten) ∧ (i = .write → t.outQ = s.outQ ++ [s.regA])

/-- R32: the control states and all their transitions: HALT halts, an indexed access beyond memory faults, reset runs,
and nothing else moves the machine between the three; the fourth combination of flags is never reached. -/
def Obligations.ControlStateTransitions : Prop :=
  (∀ s : State, s.control = some .running ↔ s.halted = false ∧ s.faulted = false) ∧
  (∀ s : State, s.control = some .halted ↔ s.halted = true ∧ s.faulted = false) ∧
  (∀ s : State, s.control = some .faulted ↔ s.halted = true ∧ s.faulted = true) ∧
  (∀ cfg mode m0 s, Reachable cfg mode m0 s → s.control ≠ none) ∧
  (∀ (s t : State) i, s.control = some .running → buffered s = .instr i → step s = .next t →
    t.control = some (if i = .halt then .halted else if raisesFault i s then .faulted else .running)) ∧
  (∀ (s t : State) op, s.control = some .running → buffered s = .unassigned op → step s = .next t → t.control = some .running) ∧
  (∀ s : State, s.control = some .halted ∨ s.control = some .faulted → step s = .next s) ∧
  (∀ mode s, (hostReset mode s).control = some .running) ∧
  (∀ mode op s t r, hostStep mode op s = .returns t r → op ≠ .tick → op ≠ .reset → t.control = s.control)

/-- R25: a tick that executes leaves `outputWasWritten` true exactly when it executed a WRITE; reset leaves it false; no
instruction reads it. -/
def Obligations.OutputFlagMarksWriteTicks : Prop :=
  (∀ (s t : State), s.halted = false → step s = .next t → (t.outputWasWritten = true ↔ buffered s = .instr .write)) ∧
  (∀ mode s, (hostReset mode s).outputWasWritten = false) ∧
  (∀ mode op s t r, hostStep mode op s = .returns t r → op ≠ .tick → op ≠ .reset →
    t.outputWasWritten = s.outputWasWritten) ∧
  (∀ i s f, exec i { s with outputWasWritten := f } =
    mapNext (fun t => if i = .write then t else { t with outputWasWritten := f }) (exec i s)) ∧
  (∀ cfg mode m0 s, Reachable cfg mode m0 s → s.halted = true → s.outputWasWritten = false)

/-- Every instruction goes on in every state, but for LOAD and SAVE of a cell that does not exist, which stop with that
address, the spec's decision D6 (10_state.md section 8; 44_memory_access.md section 1). -/
def Obligations.EveryInstructionGoesOnOrNamesTheMissingCell : Prop :=
  ∀ i s,
    ((∀ a, uncheckedAddress i = some a → a < s.cfg.memsize) → ∃ t, exec i s = .next t) ∧
    (∀ a, uncheckedAddress i = some a → s.cfg.memsize ≤ a → exec i s = .fault (.addressOutOfRange a))

/-- A tick changes at most the one cell its instruction stores to, and stores the low byte of A there
(40_execution_cycle.md section 1; 44_memory_access.md section 2). That SAVEI stores the low byte for `W > 8` is the spec's
decision D4. -/
def Obligations.TickChangesOnlyTheStoreAddress : Prop :=
  (∀ (s t : State) i, s.halted = false → buffered s = .instr i → step s = .next t →
    (∀ x, storeAddress i s ≠ some x → t.mem.read x = s.mem.read x) ∧
    (∀ a, storeAddress i s = some a → t.mem.read a = BitVec.ofNat 8 (s.regA % 256))) ∧
  (∀ (s t : State) op, s.halted = false → buffered s = .unassigned op → step s = .next t → t.mem = s.mem)

/-- With `memsize ≥ 256` every step from a state that meets the invariants has a successor state, which meets them too; so
no run ever meets `undefined` (40_execution_cycle.md section 3: "This outcome needs `memsize < 256`"; the spec's decision
D6). The canonical form of memory among the invariants is the model's choice of log entry 13. -/
def Obligations.LargeMemoryNeverMeetsUndefined : Prop :=
  (∀ s : State, StateInv s → 256 ≤ s.cfg.memsize → ∃ t, step s = .next t ∧ StateInv t) ∧
  (∀ cfg mode m0 s, 256 ≤ cfg.memsize → Reachable cfg mode m0 s → ∀ n, ∃ t, ticks n s = .next t)

/-! ### The host -/

/-- Load writes its bytes to its cells and changes nothing else, the prefetch buffer included; out of range it leaves
the state unchanged (20_memory.md section 5). The refusal of an element that is no byte is the spec's decision D25; that it
comes before the range check, so at every offset, is the model's choice of log entry 14. -/
def Obligations.LoadOverwritesOnlyItsCells : Prop :=
  (∀ (bs : List Byte) (offset : Int) s, 0 ≤ offset → offset + bs.length ≤ s.cfg.memsize →
    ∃ t, hostLoad (bs.map fun b => (b.toNat : Int)) offset s = .ok t ∧ t = { s with mem := t.mem } ∧
      (∀ k (h : k < bs.length), t.mem.read (offset.toNat + k) = bs[k]) ∧
      (∀ x, x < offset.toNat ∨ offset.toNat + bs.length ≤ x → t.mem.read x = s.mem.read x)) ∧
  (∀ (bs : List Byte) (offset : Int) s, offset < 0 ∨ s.cfg.memsize < offset + bs.length →
    hostStep .resetPrefetch (.load (bs.map fun b => (b.toNat : Int)) offset) s = .returns s .loadOutOfRange) ∧
  (∀ (vs : List Int) (offset : Int) s, (∃ v ∈ vs, v < 0 ∨ 255 < v) → hostLoad vs offset s = .notBytes)

/-- The queue operations are first in, first out, and touch only their queue; the queries change nothing (10_state.md
section 10). That an empty pop answers `none` is the spec's decision D13, and what inspection shows the host is its
decision D26. -/
def Obligations.QueueOperationsAndQueries : Prop :=
  ∀ mode s,
    (∀ v, hostStep mode (.pushInput v) s = .returns { s with inQ := s.inQ ++ [v] } .unit) ∧
    (∀ v rest, s.outQ = v :: rest → hostStep mode .popOutput s = .returns { s with outQ := rest } (.popped (some v))) ∧
    (s.outQ = [] → hostStep mode .popOutput s = .returns s (.popped none)) ∧
    hostStep mode .isHalted s = .returns s (.flag s.halted) ∧
    hostStep mode .isFaulted s = .returns s (.flag s.faulted) ∧
    hostStep mode .outputWasWritten s = .returns s (.flag s.outputWasWritten) ∧
    hostStep mode .inspect s = .returns s (.inspection ⟨s.regA, s.regB, s.pc, s.mem, s.overflow⟩)

/-- The two start modes give the same run: one tick takes the bubble's state to the prefetched one, under the same
inputs, so `n + 1` ticks of the one are `n` ticks of the other (70_reset_and_hazards.md section 1). -/
def Obligations.StartModesGiveTheSameRun : Prop :=
  ∀ s inputs,
    step (pushInputs inputs (hostReset .bubble s)) = .next (pushInputs inputs (hostReset .resetPrefetch s)) ∧
    ∀ n, Host.Core.run Sys2Proof.core (n + 1) (pushInputs inputs (hostReset .bubble s)) =
      Host.Core.run Sys2Proof.core n (pushInputs inputs (hostReset .resetPrefetch s))

/-- A harness that pops output as it appears sees the run that uninterrupted ticks make: the same final state but for
the output queue, and the popped values followed by the queue are the whole output; it stops where they stop
(40_execution_cycle.md section 4). That the loop pops exactly once after each tick that produced output is the model's
reading, log entry 15. -/
def Obligations.DrainingHarnessLosesNoOutput : Prop :=
  ∀ n s popped,
    (∀ t, ticks n s = .next t → ∃ u q, harnessRun n s popped = .next (u, q) ∧
      t = { u with outQ := t.outQ } ∧ q ++ u.outQ = popped ++ t.outQ) ∧
    (∀ f, ticks n s = .fault f → harnessRun n s popped = .fault f)

/-- An input pushed between ticks changes nothing about the next tick, unless that tick's READ finds the queue empty
(70_reset_and_hazards.md section 2). -/
def Obligations.LaterInputDoesNotDisturbATick : Prop :=
  ∀ s v, s.inQ ≠ [] ∨ buffered s ≠ .instr .read → step (pushInput v s) = mapNext (pushInput v) (step s)

/-- Booting the same program with the same inputs reproduces the run, when memory outside the program's cells is as it
was (70_reset_and_hazards.md section 1; the premise on memory is the model's, log entry 8). -/
def Obligations.RebootReproducesTheRun : Prop :=
  ∀ mode program inputs s u t, s.cfg = u.cfg → s.mem.wf = true → u.mem.wf = true →
    (∀ a, program.length ≤ a → s.mem.read a = u.mem.read a) →
    boot mode program inputs s = some t → boot mode program inputs u = some t

/-- Two memories in canonical form that read the same everywhere are the same data. -/
def Obligations.CanonicalMemoriesAreDeterminedByReads : Prop :=
  ∀ m k : Memory, m.wf = true → k.wf = true → (∀ a, Memory.read m a = Memory.read k a) → m = k

/-- The ALU's result and its overflow flag together determine the exact sum and difference of two words
(41_alu_register.md section 1). -/
def Obligations.AluResultAndFlagGiveTheExactValue : Prop :=
  ∀ c x y, x < c.modulus → y < c.modulus →
    (aluAdd c x y).1 < c.modulus ∧ (aluSub c x y).1 < c.modulus ∧
    x + y = (aluAdd c x y).1 + (if (aluAdd c x y).2 then c.modulus else 0) ∧
    x + (if (aluSub c x y).2 then c.modulus else 0) = (aluSub c x y).1 + y

/-! ### The assembler -/

/-- What the assembler returns fits the machine it assembles for (48_assembler.md section 1). -/
def Obligations.AssembledTextFitsTheMachine : Prop :=
  ∀ memsize source bytes, assembleText memsize source = .ok bytes → bytes.length ≤ memsize

/-- Assembling the listing of a program gives the program's encoding, which the decoder reads back; a program too large
fails at the line of the first byte that does not fit (48_assembler.md sections 2 and 6). -/
def Obligations.AssembledListingIsTheEncoding : Prop :=
  ∀ memsize (program : List Instr),
    ((program.flatMap encode).length ≤ memsize → assembleText memsize (listing program) = .ok (program.flatMap encode)) ∧
    (memsize < (program.flatMap encode).length → ∃ k, k < program.length ∧
      ((program.take k).flatMap encode).length ≤ memsize ∧ memsize < ((program.take (k + 1)).flatMap encode).length ∧
      assembleText memsize (listing program) = .error ⟨.programTooLarge, k + 1⟩)

/-- The source's worked example assembles to the bytes, labels and patches the spec gives (48_assembler.md section 8). -/
def Obligations.WorkedLabelExampleAssembles : Prop :=
  assembleText 256 "JUMP :end\nSET 01\nend:\nHALT".toList = .ok [0x92, 0x04, 0xA6, 0x01, 0x06] ∧
  (assembleState 256 "JUMP :end\nSET 01\nend:\nHALT".toList).labels = [("end".toList, 4)] ∧
  (assembleState 256 "JUMP :end\nSET 01\nend:\nHALT".toList).patches = [⟨"end".toList, 1, 1⟩]

/-- When a text assembles, every label reference in it was defined, lies within the first 256 bytes and within the
program, and its byte holds the label's offset (48_assembler.md section 7). -/
def Obligations.ResolutionFillsEveryReference : Prop :=
  ∀ memsize source bytes, assembleText memsize source = .ok bytes →
    ∀ p ∈ (assembleState memsize source).patches,
      ∃ v, labelOffset? (assembleState memsize source).labels p.name = some v ∧ v ≤ 255 ∧ v ≤ bytes.length ∧
        bytes[p.offset]? = some (BitVec.ofNat 8 v)

/-- A label definition line records the buffer length under the lower-cased name and emits nothing; a name already
defined in any case fails with `DuplicateLabel` at that line (48_assembler.md section 5). The name is of ASCII
characters (log entry 7); that any such characters but blanks and colons make a name is the spec's decision D20. That the
line number counts up before the line, and that a failed pass keeps its buffer, labels and patches, are the model's
readings of log entries 9 and 11. -/
def Obligations.LabelsAreWriteOnce : Prop :=
  ∀ memsize (st : AsmState) name, st.phase = .pass1 → name ≠ [] → name.head? ≠ some '#' →
    (∀ c ∈ name, isAscii c = true ∧ isBlank c = false ∧ c ≠ ':') →
    (labelOffset? st.labels (name.map Char.toLower) = none → assembleLine memsize st (name ++ [':']) =
      { st with lineNo := st.lineNo + 1, labels := st.labels ++ [(name.map Char.toLower, st.buf.length)] }) ∧
    (∀ v, labelOffset? st.labels (name.map Char.toLower) = some v → assembleLine memsize st (name ++ [':']) =
      { st with lineNo := st.lineNo + 1, phase := .failed .duplicateLabel (st.lineNo + 1) })

/-- Instruction lines of a mnemonic in any case and operands separated by spaces, all of ASCII characters (log entry 7).
A format I line with a label reference emits the opcode and a zero placeholder and records the patch; with two hex digits,
of either case by the spec's decision D17, it emits the opcode and their value; a format N line emits its opcode. A line
that does not fit fails with `ProgramTooLarge`. No operand where one is needed is `MissingOperand`; an operand of another
form is `MalformedOperand`, and so is, by D16, one too many; a first word that is no mnemonic, directive or label
definition is `UnknownMnemonic` (48_assembler.md sections 2, 3 and 6). The line in a patch is the spec's decision D22; that
it counts up before the line, and that a failed pass keeps its buffer, are log entries 9 and 11. -/
def Obligations.LabelReferenceEmitsAPlaceholder : Prop :=
  ∀ memsize (st : AsmState) kw ops, st.phase = .pass1 → asciiWord kw = true → (∀ op ∈ ops, asciiWord op = true) →
    (∀ row ∈ formatIRows, kw.map Char.toUpper = row.mnemonic.text.toList →
      (∀ name, ops = [':' :: name] → name ≠ [] → ':' ∉ name →
        (st.buf.length + 2 ≤ memsize → assembleLine memsize st (lineText (kw :: ops)) =
          { st with
            lineNo := st.lineNo + 1
            buf := st.buf ++ [row.opcode, 0]
            patches := st.patches ++ [⟨name.map Char.toLower, st.buf.length + 1, st.lineNo + 1⟩] }) ∧
        (memsize < st.buf.length + 2 →
          (assembleLine memsize st (lineText (kw :: ops))).phase = .failed .programTooLarge (st.lineNo + 1))) ∧
      (∀ hi lo b, ops = [[hi, lo]] → hexByte? hi lo = some b →
        (st.buf.length + 2 ≤ memsize → assembleLine memsize st (lineText (kw :: ops)) =
          { st with lineNo := st.lineNo + 1, buf := st.buf ++ [row.opcode, b] }) ∧
        (memsize < st.buf.length + 2 →
          (assembleLine memsize st (lineText (kw :: ops))).phase = .failed .programTooLarge (st.lineNo + 1))) ∧
      (ops = [] → assembleLine memsize st (lineText (kw :: ops)) = failedLine .missingOperand st) ∧
      (∀ op, ops = [op] → (∀ name, op = ':' :: name → name = [] ∨ ':' ∈ name) →
        (∀ hi lo, op = [hi, lo] → hexByte? hi lo = none) →
        assembleLine memsize st (lineText (kw :: ops)) = failedLine .malformedOperand st) ∧
      (2 ≤ ops.length → assembleLine memsize st (lineText (kw :: ops)) = failedLine .malformedOperand st)) ∧
    (∀ row ∈ formatNRows, kw.map Char.toUpper = row.mnemonic.text.toList →
      (ops = [] → st.buf.length + 1 ≤ memsize → assembleLine memsize st (lineText (kw :: ops)) =
        { st with lineNo := st.lineNo + 1, buf := st.buf ++ [row.opcode] }) ∧
      (ops = [] → memsize < st.buf.length + 1 →
        assembleLine memsize st (lineText (kw :: ops)) = failedLine .programTooLarge st) ∧
      (ops ≠ [] → assembleLine memsize st (lineText (kw :: ops)) = failedLine .malformedOperand st)) ∧
    ((∀ row ∈ instructionTable, kw.map Char.toUpper ≠ row.mnemonic.text.toList) →
      kw.map Char.toUpper ≠ "STR".toList → kw.map Char.toUpper ≠ "HEX".toList → kw.head? ≠ some '#' →
      (ops = [] → ∀ name, kw = name ++ [':'] → name = [] ∨ ':' ∈ name) →
      assembleLine memsize st (lineText (kw :: ops)) = failedLine .unknownMnemonic st)

/-- `STR` of a text made of pieces - ASCII characters, and the escapes of the spec's table - emits a byte for each piece
and a zero byte; `HEX` of hex pairs, with whitespace anywhere, emits their bytes and no terminator. Both fail with
`MalformedOperand`, before any byte is emitted, on anything else, and with `ProgramTooLarge` where the bytes do not fit
(48_assembler.md sections 2 and 4). Where the text of `STR` begins and ends, its escapes and its characters are the spec's
decision D18, the form of the `HEX` operand D19, the case of the keywords D23; that one CR at the end of the line is
removed is D15 and log entry 10; a failed line is as log entries 9 and 11 say. -/
def Obligations.DirectivesEmitTheirData : Prop :=
  ("0123456789abcdef".toList.map hexDigit? = (List.range 16).map some ∧
    "0123456789ABCDEF".toList.map hexDigit? = (List.range 16).map some ∧
    (∀ c, c ∉ "0123456789abcdefABCDEF".toList → hexDigit? c = none) ∧
    ∀ hi lo h l, hexDigit? hi = some h → hexDigit? lo = some l → hexByte? hi lo = some (BitVec.ofNat 8 (16 * h + l))) ∧
  (∀ memsize (st : AsmState) kw, st.phase = .pass1 → kw.map Char.toUpper = "STR".toList →
    (st.buf.length + 1 ≤ memsize → assembleLine memsize st kw =
      { st with lineNo := st.lineNo + 1, buf := st.buf ++ [0] }) ∧
    (∀ (pieces : List (List Char × Byte)) (bad : List Char) sep eol, (∀ p ∈ pieces, strPiece p) →
      sep = ' ' ∨ sep = '\t' → eol = [] ∨ eol = ['\r'] →
      (pieces.flatMap Prod.fst ++ bad).getLast? ≠ some '\r' →
      (bad = [] → st.buf.length + pieces.length + 1 ≤ memsize →
        assembleLine memsize st (kw ++ sep :: (pieces.flatMap Prod.fst ++ bad) ++ eol) =
          { st with lineNo := st.lineNo + 1, buf := st.buf ++ pieces.map Prod.snd ++ [0] }) ∧
      (bad = [] → st.buf.length ≤ memsize → memsize < st.buf.length + pieces.length + 1 →
        (assembleLine memsize st (kw ++ sep :: (pieces.flatMap Prod.fst ++ bad) ++ eol)).phase =
          .failed .programTooLarge (st.lineNo + 1)) ∧
      (strBad bad → assembleLine memsize st (kw ++ sep :: (pieces.flatMap Prod.fst ++ bad) ++ eol) =
        failedLine .malformedOperand st))) ∧
  (∀ memsize (st : AsmState) kw rest, st.phase = .pass1 → kw.map Char.toUpper = "HEX".toList →
    (∀ c, rest.head? = some c → isBlank c = true) →
    (∀ pairs : List (List Char × Byte), (∀ p ∈ pairs, ∃ hi lo, p.1 = [hi, lo] ∧ hexByte? hi lo = some p.2) →
      (rest.filter fun c => !isBlank c) = pairs.flatMap Prod.fst →
      (st.buf.length + pairs.length ≤ memsize → assembleLine memsize st (kw ++ rest) =
        { st with lineNo := st.lineNo + 1, buf := st.buf ++ pairs.map Prod.snd }) ∧
      (st.buf.length ≤ memsize → memsize < st.buf.length + pairs.length →
        (assembleLine memsize st (kw ++ rest)).phase = .failed .programTooLarge (st.lineNo + 1))) ∧
    ((rest.filter fun c => !isBlank c).length % 2 = 1 ∨
        (∃ c ∈ rest, isBlank c = false ∧ c ∉ "0123456789abcdefABCDEF".toList) →
      assembleLine memsize st (kw ++ rest) = failedLine .malformedOperand st))
end

