-- ==== Sys2Proof/Laws/Assembler.lean ====
section
/-! SUPPORT. What the assembler's operations can do. -/

namespace Sys2Proof.Machine

theorem inPass1_pos {st : AsmState} (h : st.phase = .pass1) (f : AsmState → AsmState) : inPass1 f st = f st := if_pos h

theorem inPass1_neg {st : AsmState} (h : st.phase ≠ .pass1) (f : AsmState → AsmState) : inPass1 f st = st := if_neg h

/-- A failed or finished pass emits nothing more (48_assembler.md R100). -/
theorem emitAll_not_pass1 (memsize : Nat) (bs : List Byte) {st : AsmState} (h : st.phase ≠ .pass1) :
    emitAll memsize bs st = st := by
  induction bs with
  | nil => rfl
  | cons b bs ih => simpa [emitAll, emit, inPass1_neg h] using ih

/-- Everything emitting bytes in pass 1 can do: all of them are appended when they fit, and otherwise the pass ends
with `ProgramTooLarge` (48_assembler.md R101). -/
theorem emitAll_pass1 (memsize : Nat) (bs : List Byte) {st : AsmState} (h : st.phase = .pass1)
    (hlen : st.buf.length ≤ memsize) :
    (st.buf.length + bs.length ≤ memsize ∧ emitAll memsize bs st = { st with buf := st.buf ++ bs }) ∨
    (memsize < st.buf.length + bs.length ∧ (emitAll memsize bs st).phase = .failed .programTooLarge st.lineNo) := by
  induction bs generalizing st with
  | nil => exact .inl ⟨by simpa using hlen, by simp [emitAll]⟩
  | cons b bs ih =>
    have hcons : emitAll memsize (b :: bs) st = emitAll memsize bs (emit memsize st b) := rfl
    by_cases hfull : memsize ≤ st.buf.length
    · have he : emit memsize st b = st.fail .programTooLarge := by simp [emit, inPass1_pos h, hfull]
      refine .inr ⟨by simp; omega, ?_⟩
      rw [hcons, he, emitAll_not_pass1 memsize bs (by simp [AsmState.fail])]
      rfl
    · have he : emit memsize st b = { st with buf := st.buf ++ [b] } := by simp [emit, inPass1_pos h, hfull]
      rw [hcons, he]
      rcases ih (st := { st with buf := st.buf ++ [b] }) h (by simp; omega) with ⟨hl, hs⟩ | ⟨hl, hs⟩
      · refine .inl ⟨by simp at hl ⊢; omega, ?_⟩
        rw [hs]
        simp
      · exact .inr ⟨by simp at hl ⊢; omega, hs⟩

/-- Pass 1 goes on, or it has failed. -/
def inOrFailed (st : AsmState) : Prop := st.phase = .pass1 ∨ ∃ k l, st.phase = .failed k l

theorem fail_inOrFailed (st : AsmState) (k : AsmErrorKind) : inOrFailed (st.fail k) := .inr ⟨k, st.lineNo, rfl⟩

theorem emit_inOrFailed (memsize : Nat) {st : AsmState} (h : inOrFailed st) (b : Byte) :
    inOrFailed (emit memsize st b) := by
  unfold emit inPass1
  split
  · dsimp only
    split
    · exact fail_inOrFailed _ _
    · exact h
  · exact h

theorem emitAll_inOrFailed (memsize : Nat) (bs : List Byte) {st : AsmState} (h : inOrFailed st) :
    inOrFailed (emitAll memsize bs st) := by
  induction bs generalizing st with
  | nil => exact h
  | cons b bs ih => exact ih (emit_inOrFailed memsize h b)

theorem addPatch_inOrFailed (name : List Char) {st : AsmState} (h : inOrFailed st) : inOrFailed (addPatch name st) := by
  unfold addPatch inPass1
  split <;> exact h

theorem assembleFormatI_inOrFailed (memsize : Nat) (opcode : Byte) (ops : List (List Char)) {st : AsmState}
    (h : inOrFailed st) : inOrFailed (assembleFormatI memsize opcode ops st) := by
  unfold assembleFormatI
  split
  · exact fail_inOrFailed _ _
  · split
    · exact emitAll_inOrFailed memsize _ h
    · exact emit_inOrFailed memsize (addPatch_inOrFailed _ (emit_inOrFailed memsize h opcode)) _
    · exact fail_inOrFailed _ _
  · exact fail_inOrFailed _ _

theorem assembleForm_inOrFailed (memsize : Nat) (form : LineForm) {st : AsmState} (h : inOrFailed st) :
    inOrFailed (assembleForm memsize form st) := by
  unfold assembleForm
  split
  · exact h
  · split
    · exact emitAll_inOrFailed memsize _ h
    · exact fail_inOrFailed _ _
  · split
    · exact emitAll_inOrFailed memsize _ h
    · exact fail_inOrFailed _ _
  · unfold defineLabel
    split
    · exact fail_inOrFailed _ _
    · exact h
  · unfold assembleInstruction
    split
    · exact fail_inOrFailed _ _
    · split
      · exact assembleFormatI_inOrFailed memsize _ _ h
      · split
        · exact emit_inOrFailed memsize h _
        · exact fail_inOrFailed _ _

/-- A line keeps the pass in pass 1 or fails it (48_assembler.md R100). -/
theorem assembleLine_inOrFailed (memsize : Nat) {st : AsmState} (h : inOrFailed st) (line : List Char) :
    inOrFailed (assembleLine memsize st line) := by
  unfold assembleLine inPass1
  split
  · exact assembleForm_inOrFailed memsize _ h
  · exact h

theorem assembleLines_inOrFailed (memsize : Nat) (lines : List (List Char)) {st : AsmState} (h : inOrFailed st) :
    inOrFailed (lines.foldl (assembleLine memsize) st) := by
  induction lines generalizing st with
  | nil => exact h
  | cons l ls ih => exact ih (assembleLine_inOrFailed memsize h l)

/-- A patch leaves the resolving phase only by failing. -/
theorem applyPatch_phase (st : AsmState) (p : Patch) :
    (applyPatch st p).phase = st.phase ∨ ∃ k l, (applyPatch st p).phase = .failed k l := by
  unfold applyPatch
  split
  · split
    · exact .inr ⟨_, _, rfl⟩
    · split
      · exact .inr ⟨_, _, rfl⟩
      · exact .inl rfl
  · exact .inl rfl

theorem applyPatches_phase (ps : List Patch) {st : AsmState}
    (h : st.phase = .resolving ∨ ∃ k l, st.phase = .failed k l) :
    (ps.foldl applyPatch st).phase = .resolving ∨ ∃ k l, (ps.foldl applyPatch st).phase = .failed k l := by
  induction ps generalizing st with
  | nil => exact h
  | cons p ps ih =>
    refine ih ?_
    rcases applyPatch_phase st p with hp | hp
    · rw [hp]; exact h
    · exact .inr hp

/-- Resolution that starts in `Resolving` or `Failed` ends in `Done` or `Failed` (48_assembler.md R100). -/
theorem resolve_terminal {st : AsmState} (h : st.phase = .resolving ∨ ∃ k l, st.phase = .failed k l) :
    (resolve st).phase = .done ∨ ∃ k l, (resolve st).phase = .failed k l := by
  unfold resolve
  dsimp only
  rcases applyPatches_phase st.patches h with hr | hf
  · rw [if_pos hr]
    exact .inl rfl
  · obtain ⟨k, l, hk⟩ := hf
    rw [if_neg (by simp [hk])]
    exact .inr ⟨k, l, hk⟩

/-- A whole text ends in `Done` or `Failed`, so the phases `assembleText` reads are these two (48_assembler.md R98). -/
theorem assembleState_terminal (memsize : Nat) (source : List Char) :
    (assembleState memsize source).phase = .done ∨ ∃ k l, (assembleState memsize source).phase = .failed k l := by
  refine resolve_terminal ?_
  rcases assembleLines_inOrFailed memsize (sourceLines source) (st := AsmState.init) (.inl rfl) with h | ⟨k, l, h⟩
  · exact .inl (by simp [endOfText, inPass1, h])
  · exact .inr ⟨k, l, by simp [endOfText, inPass1, h]⟩

/-! ### Text -/

/-- A text of ASCII characters upper-cases character by character. -/
theorem upperText_ascii {w : List Char} (h : ∀ c ∈ w, isAscii c = true) : upperText w = w.map Char.toUpper := by
  induction w with
  | nil => rfl
  | cons c w ih =>
    have hc := h c (by simp)
    have := ih fun d hd => h d (by simp [hd])
    simp only [upperText, List.flatMap_cons, hc, if_true] at this ⊢
    simp [this]

/-- A text of ASCII characters lower-cases character by character. -/
theorem lowerText_ascii {w : List Char} (h : ∀ c ∈ w, isAscii c = true) : lowerText w = w.map Char.toLower := by
  induction w with
  | nil => rfl
  | cons c w ih =>
    have hc := h c (by simp)
    have := ih fun d hd => h d (by simp [hd])
    simp only [lowerText, List.flatMap_cons, hc, if_true] at this ⊢
    simp [this]

theorem asciiWord_ne_nil {w : List Char} (h : asciiWord w = true) : w ≠ [] := by
  rintro rfl
  simp [asciiWord] at h

theorem asciiWord_mem {w : List Char} (h : asciiWord w = true) {c : Char} (hc : c ∈ w) :
    isAscii c = true ∧ isBlank c = false := by
  simp only [asciiWord, Bool.and_eq_true, List.all_eq_true] at h
  simpa using h.2 c hc

theorem dropWhile_isBlank {s : List Char} (h : ∀ c, s.head? = some c → isBlank c = false) : s.dropWhile isBlank = s := by
  cases s with
  | nil => rfl
  | cons c s => simp [h c rfl]

theorem lineText_ne_nil {w : List Char} {ws : List (List Char)} (h : w ≠ []) : lineText (w :: ws) ≠ [] := by
  cases ws <;> simp [lineText, h]

theorem lineText_head {ws : List (List Char)} (h : ∀ w ∈ ws, asciiWord w = true) {c : Char}
    (hc : (lineText ws).head? = some c) : isBlank c = false := by
  match ws with
  | [] => simp [lineText] at hc
  | [w] => exact (asciiWord_mem (h w (by simp)) (List.mem_of_mem_head? hc)).2
  | w :: v :: rest =>
    obtain ⟨d, w', rfl⟩ := List.exists_cons_of_ne_nil (asciiWord_ne_nil (h w (by simp)))
    simp only [lineText, List.cons_append, List.head?_cons, Option.some.injEq] at hc
    exact hc ▸ (asciiWord_mem (h (d :: w') (by simp)) (by simp)).2

theorem lineText_last {ws : List (List Char)} (h : ∀ w ∈ ws, asciiWord w = true) {c : Char}
    (hc : (lineText ws).getLast? = some c) : isBlank c = false := by
  induction ws with
  | nil => simp [lineText] at hc
  | cons w ws ih =>
    cases ws with
    | nil => exact (asciiWord_mem (h w (by simp)) (List.mem_of_getLast? hc)).2
    | cons v rest =>
      refine ih (fun u hu => h u (by simp [hu])) ?_
      have hv : lineText (v :: rest) ≠ [] := lineText_ne_nil (asciiWord_ne_nil (h v (by simp)))
      simp only [lineText] at hc
      rwa [List.getLast?_append_of_ne_nil _ (by simp), List.getLast?_cons_of_ne_nil hv] at hc

/-- A line of words has nothing to trim. -/
theorem trimText_lineText {ws : List (List Char)} (h : ∀ w ∈ ws, asciiWord w = true) :
    trimText (lineText ws) = lineText ws := by
  unfold trimText
  rw [dropWhile_isBlank fun c hc => lineText_head h hc, dropWhile_isBlank, List.reverse_reverse]
  intro c hc
  exact lineText_last h (List.head?_reverse ▸ hc)

theorem dropFinalCr_lineText {ws : List (List Char)} (h : ∀ w ∈ ws, asciiWord w = true) :
    dropFinalCr (lineText ws) = lineText ws :=
  if_neg fun hc => by simpa [isBlank] using lineText_last h hc

theorem firstWord_lineText {kw : List Char} (ops : List (List Char)) (hk : asciiWord kw = true) :
    firstWord (lineText (kw :: ops)) = kw := by
  have hpos : ∀ c ∈ kw, (!isBlank c) = true := fun c hc => by simp [(asciiWord_mem hk hc).2]
  cases ops with
  | nil => exact List.takeWhile_eq_self_iff.mpr hpos
  | cons v rest =>
    simp only [firstWord, lineText]
    rw [List.takeWhile_append_of_pos hpos]
    simp [isBlank]

theorem afterFirstWord_lineText {kw : List Char} {ops : List (List Char)} (hk : asciiWord kw = true)
    (ho : ∀ w ∈ ops, asciiWord w = true) : afterFirstWord (lineText (kw :: ops)) = lineText ops := by
  have hpos : ∀ c ∈ kw, (!isBlank c) = true := fun c hc => by simp [(asciiWord_mem hk hc).2]
  cases ops with
  | nil => simp [afterFirstWord, lineText, List.dropWhile_eq_nil_iff.mpr hpos]
  | cons v rest =>
    simp only [afterFirstWord, lineText]
    rw [List.dropWhile_append_of_pos hpos]
    simpa [isBlank] using dropWhile_isBlank fun c hc => lineText_head ho hc

theorem splitText_ne_nil (p : Char → Bool) (s : List Char) : splitText p s ≠ [] := by
  induction s with
  | nil => simp [splitText]
  | cons c s ih =>
    simp only [splitText]
    split
    · simp
    · split <;> simp

/-- Characters that cut nothing go into the first piece. -/
theorem splitText_append {p : Char → Bool} {w : List Char} (h : ∀ c ∈ w, p c = false) (s : List Char) :
    ∃ v vs, splitText p s = v :: vs ∧ splitText p (w ++ s) = (w ++ v) :: vs := by
  obtain ⟨v, vs, hv⟩ := List.exists_cons_of_ne_nil (splitText_ne_nil p s)
  refine ⟨v, vs, hv, ?_⟩
  induction w with
  | nil => simpa using hv
  | cons c w ih => simp [splitText, h c (by simp), ih fun d hd => h d (by simp [hd])]

/-- The tokens of a line of words are the words (48_assembler.md R102). -/
theorem tokens_lineText {ops : List (List Char)} (ho : ∀ w ∈ ops, asciiWord w = true) : tokens (lineText ops) = ops := by
  induction ops with
  | nil => simp [tokens, lineText, splitText]
  | cons w ops ih =>
    have hw := ho w (by simp)
    have hne := asciiWord_ne_nil hw
    have ih := ih fun u hu => ho u (by simp [hu])
    have hp : ∀ c ∈ w, isBlank c = false := fun c hc => (asciiWord_mem hw hc).2
    cases ops with
    | nil =>
      obtain ⟨v, vs, h1, h2⟩ := splitText_append hp ([] : List Char)
      simp only [splitText, List.cons.injEq, List.append_nil] at h1 h2
      simp [tokens, lineText, h2, ← h1.1, ← h1.2, hne]
    | cons v rest =>
      obtain ⟨x, xs, h1, h2⟩ := splitText_append hp (' ' :: lineText (v :: rest))
      simp only [splitText, show isBlank ' ' = true from rfl, if_true, List.cons.injEq] at h1
      unfold tokens at ih ⊢
      simp only [lineText]
      rw [h2, ← h1.1, ← h1.2]
      simp [hne, ih]

/-- A line of words that is no comment, directive or label definition is an instruction line (48_assembler.md R102). -/
theorem classify_lineText {kw : List Char} {ops : List (List Char)} (hk : asciiWord kw = true)
    (ho : ∀ w ∈ ops, asciiWord w = true) (hh : kw.head? ≠ some '#') (hs : kw.map Char.toUpper ≠ "STR".toList)
    (hx : kw.map Char.toUpper ≠ "HEX".toList) (hl : ops = [] → labelName? kw = none) :
    classify (lineText (kw :: ops)) = .instruction kw ops := by
  have hall : ∀ w ∈ kw :: ops, asciiWord w = true := List.forall_mem_cons.mpr ⟨hk, ho⟩
  have hne := asciiWord_ne_nil hk
  have hhead : (lineText (kw :: ops)).head? ≠ some '#' := by
    obtain ⟨d, w', rfl⟩ := List.exists_cons_of_ne_nil hne
    cases ops <;> simpa [lineText] using hh
  have hu := upperText_ascii fun c hc => (asciiWord_mem hk hc).1
  unfold classify
  simp only [trimText_lineText hall, firstWord_lineText ops hk, afterFirstWord_lineText hk ho, tokens_lineText ho, hu]
  rw [if_neg (lineText_ne_nil hne), if_neg hhead, if_neg hs, if_neg hx]
  cases ops with
  | nil => simp [lineText, hl rfl]
  | cons v rest => simp [lineText_ne_nil (asciiWord_ne_nil (ho v (by simp)))]

/-- In pass 1 such a line is assembled as its instruction (48_assembler.md R102, R106). -/
theorem assembleLine_lineText (memsize : Nat) {st : AsmState} (hp : st.phase = .pass1) {kw : List Char}
    {ops : List (List Char)} (hk : asciiWord kw = true) (ho : ∀ w ∈ ops, asciiWord w = true)
    (hh : kw.head? ≠ some '#') (hs : kw.map Char.toUpper ≠ "STR".toList) (hx : kw.map Char.toUpper ≠ "HEX".toList)
    (hl : ops = [] → labelName? kw = none) :
    assembleLine memsize st (lineText (kw :: ops)) =
      assembleInstruction memsize kw ops { st with lineNo := st.lineNo + 1 } := by
  unfold assembleLine
  rw [inPass1_pos hp]
  simp only [dropFinalCr_lineText (List.forall_mem_cons.mpr ⟨hk, ho⟩), classify_lineText hk ho hh hs hx hl]
  rfl

/-! ### Directive data -/

/-- A piece at the head of a `STR` text gives its byte (48_assembler.md R103). -/
theorem strBytes_piece {p : List Char × Byte} (h : strPiece p) (rest : List Char) :
    strBytes? (p.1 ++ rest) = (strBytes? rest).map (p.2 :: ·) := by
  rcases h with h | ⟨hi, lo, h1, h2⟩ | ⟨c, h1, h2, h3, h4⟩
  · fin_cases h <;> (simp only [List.cons_append, List.nil_append]; conv_lhs => unfold strBytes?) <;> simp [simpleEscape?]
  · rw [h1]
    simp only [List.cons_append, List.nil_append]
    conv_lhs => unfold strBytes?
    simp [h2]
  · rw [h1, h4]
    simp only [List.cons_append, List.nil_append]
    conv_lhs => unfold strBytes?
    simp [h2, h3]

/-- Where no piece begins the text is malformed (48_assembler.md R103). -/
theorem strBytes_bad {t : List Char} (h : strBad t) : strBytes? t = none := by
  rcases h with rfl | ⟨e, rest, rfl, he⟩ | ⟨rest, rfl, hr⟩ | ⟨c, rest, rfl, hc⟩
  · rfl
  · simp at he
    unfold strBytes?
    simp [he, simpleEscape?]
  · match rest with
    | [] => rfl
    | [a] => rfl
    | a :: b :: r =>
      unfold strBytes?
      simp [hr a b r rfl]
  · have : c ≠ '\\' := by
      rintro rfl
      simp [isAscii] at hc
    unfold strBytes?
    simp [this, hc]

end Sys2Proof.Machine
end

