-- ==== Sys2Proof/Laws/Memory.lean ====
section
/-! SUPPORT. The laws of memory: what a read gives after a write, and that every memory operation keeps the
canonical form. -/

namespace Sys2Proof.Machine

/-! ### Reads -/

theorem Memory.read_without_same (m : Memory) (a : Nat) : Memory.read (m.without a) a = Memory.unlisted := by
  induction m with
  | nil => rfl
  | cons c m ih =>
    obtain ⟨k, v⟩ := c
    by_cases h : k = a
    · simpa [Memory.without, h] using ih
    · simpa [Memory.without, h, Memory.read] using ih

theorem Memory.read_without_other (m : Memory) {a x : Nat} (h : x ≠ a) :
    Memory.read (m.without a) x = Memory.read m x := by
  induction m with
  | nil => rfl
  | cons c m ih =>
    obtain ⟨k, v⟩ := c
    by_cases hk : k = a
    · subst hk
      simpa [Memory.without, Memory.read, h.symm] using ih
    · by_cases hx : k = x
      · subst hx
        simp [Memory.without, hk, Memory.read]
      · simpa [Memory.without, hk, Memory.read, hx] using ih

theorem Memory.not_mem_without (m : Memory) (a : Nat) : ∀ c ∈ m.without a, c.1 ≠ a := by
  intro c hc
  simpa using (List.mem_filter.mp hc).2

theorem Memory.read_insertCell_same (m : Memory) (a : Nat) (v : Byte) (h : ∀ c ∈ m, c.1 ≠ a) :
    Memory.read (m.insertCell a v) a = v := by
  induction m with
  | nil => simp [Memory.insertCell, Memory.read]
  | cons c m ih =>
    obtain ⟨k, w⟩ := c
    have hk : k ≠ a := h (k, w) (by simp)
    by_cases hlt : a < k
    · simp [Memory.insertCell, hlt, Memory.read]
    · simpa [Memory.insertCell, hlt, Memory.read, hk] using ih fun c hc => h c (by simp [hc])

theorem Memory.read_insertCell_other (m : Memory) {a x : Nat} (v : Byte) (h : x ≠ a) :
    Memory.read (m.insertCell a v) x = Memory.read m x := by
  induction m with
  | nil => simp [Memory.insertCell, Memory.read, h.symm]
  | cons c m ih =>
    obtain ⟨k, w⟩ := c
    by_cases hlt : a < k
    · simp [Memory.insertCell, hlt, Memory.read, h.symm]
    · by_cases hx : k = x
      · subst hx
        simp [Memory.insertCell, hlt, Memory.read]
      · simpa [Memory.insertCell, hlt, Memory.read, hx] using ih

/-- A read of the address just written gives the value written (20_memory.md R41, R49). -/
@[simp] theorem Memory.read_write_same (m : Memory) (a : Nat) (v : Byte) : Memory.read (m.write a v) a = v := by
  unfold Memory.write
  split
  · next h => rw [h, Memory.read_without_same]
  · exact Memory.read_insertCell_same _ a v (Memory.not_mem_without m a)

/-- A write changes no other cell (20_memory.md R41). -/
theorem Memory.read_write_other (m : Memory) {a x : Nat} (v : Byte) (h : x ≠ a) :
    Memory.read (m.write a v) x = Memory.read m x := by
  unfold Memory.write
  split
  · exact Memory.read_without_other m h
  · rw [Memory.read_insertCell_other _ v h, Memory.read_without_other m h]

/-! ### The canonical form -/

/-- The canonical form, taken apart. -/
theorem Memory.wf_iff (m : Memory) :
    m.wf = true ↔ m.Pairwise (fun c d => c.1 < d.1) ∧ ∀ c ∈ m, c.2 ≠ Memory.unlisted := by
  simp [Memory.wf]

theorem Memory.wf_nil : Memory.wf [] = true := by decide

theorem Memory.without_wf {m : Memory} (h : m.wf = true) (a : Nat) : (m.without a).wf = true := by
  rw [Memory.wf_iff] at h ⊢
  exact ⟨h.1.sublist List.filter_sublist, fun c hc => h.2 c (List.mem_filter.mp hc).1⟩

theorem Memory.mem_insertCell {m : Memory} {a : Nat} {v : Byte} {c : Host.Cell} :
    c ∈ m.insertCell a v ↔ c = (a, v) ∨ c ∈ m := by
  induction m with
  | nil => simp [Memory.insertCell]
  | cons d m ih =>
    obtain ⟨k, w⟩ := d
    by_cases hlt : a < k
    · simp [Memory.insertCell, hlt]
    · simp only [Memory.insertCell, hlt, if_false, List.mem_cons, ih]
      tauto

theorem Memory.insertCell_rising {m : Memory} (h : m.Pairwise fun c d => c.1 < d.1) (a : Nat) (v : Byte)
    (hne : ∀ c ∈ m, c.1 ≠ a) : (m.insertCell a v).Pairwise fun c d => c.1 < d.1 := by
  induction m with
  | nil => simp [Memory.insertCell]
  | cons d m ih =>
    obtain ⟨k, w⟩ := d
    rw [List.pairwise_cons] at h
    have hk : k ≠ a := hne (k, w) (by simp)
    by_cases hlt : a < k
    · simp only [Memory.insertCell, hlt, if_true]
      refine List.pairwise_cons.mpr ⟨fun c hc => ?_, List.pairwise_cons.mpr h⟩
      rcases List.mem_cons.mp hc with rfl | hc
      · exact hlt
      · exact hlt.trans (h.1 c hc)
    · simp only [Memory.insertCell, hlt, if_false]
      refine List.pairwise_cons.mpr ⟨fun c hc => ?_, ih h.2 fun c hc => hne c (by simp [hc])⟩
      rcases Memory.mem_insertCell.mp hc with rfl | hc
      · exact lt_of_le_of_ne (not_lt.mp hlt) hk
      · exact h.1 c hc

/-- A write keeps the canonical form. -/
theorem Memory.write_wf {m : Memory} (h : m.wf = true) (a : Nat) (v : Byte) : (m.write a v).wf = true := by
  have hw := Memory.without_wf h a
  unfold Memory.write
  split
  · exact hw
  · next hv =>
    rw [Memory.wf_iff] at hw ⊢
    refine ⟨Memory.insertCell_rising hw.1 a v (Memory.not_mem_without m a), fun c hc => ?_⟩
    rcases Memory.mem_insertCell.mp hc with rfl | hc
    · exact hv
    · exact hw.2 c hc

/-- Writing a run of bytes keeps the canonical form. -/
theorem Memory.writeBytes_wf (bs : List Byte) {m : Memory} (h : m.wf = true) (a : Nat) :
    (m.writeBytes a bs).wf = true := by
  induction bs generalizing m a with
  | nil => exact h
  | cons b bs ih => exact ih (Memory.write_wf h a b) (a + 1)

theorem Memory.within_iff (n : Nat) (m : Memory) : m.within n = true ↔ ∀ c ∈ m, c.1 < n := by
  simp [Memory.within]

/-- A write to a cell that exists keeps memory within its cells. -/
theorem Memory.write_within {n : Nat} {m : Memory} (h : m.within n = true) {a : Nat} (ha : a < n) (v : Byte) :
    (m.write a v).within n = true := by
  rw [Memory.within_iff] at h ⊢
  intro c hc
  unfold Memory.write at hc
  split at hc
  · exact h c (List.mem_filter.mp hc).1
  · rcases Memory.mem_insertCell.mp hc with rfl | hc
    · exact ha
    · exact h c (List.mem_filter.mp hc).1

/-- Writing a run of bytes to cells that exist keeps memory within its cells. -/
theorem Memory.writeBytes_within (bs : List Byte) {n : Nat} {m : Memory} (h : m.within n = true) {a : Nat}
    (ha : a + bs.length ≤ n) : (m.writeBytes a bs).within n = true := by
  induction bs generalizing m a with
  | nil => exact h
  | cons b bs ih =>
    simp only [List.length_cons] at ha
    exact ih (Memory.write_within h (by omega) b) (by omega)

/-! ### The memory of construction -/

/-- The memory that holds `M0` is in canonical form. -/
theorem powerOnMemory_wf (n : Nat) (m0 : Nat → Byte) : (powerOnMemory n m0).wf = true := by
  rw [Memory.wf_iff]
  constructor
  · refine (List.pairwise_lt_range (n := n)).filterMap _ fun a b hab c hc d hd => ?_
    simp only [Option.ite_none_left_eq_some, Option.some.injEq] at hc hd
    rw [← hc.2, ← hd.2]
    exact hab
  · intro c hc
    obtain ⟨a, _, ha⟩ := List.mem_filterMap.mp hc
    simp only [Option.ite_none_left_eq_some, Option.some.injEq] at ha
    rw [← ha.2]
    exact ha.1

/-- The memory that holds `M0` lists only cells that exist. -/
theorem powerOnMemory_within (n : Nat) (m0 : Nat → Byte) : (powerOnMemory n m0).within n = true := by
  rw [Memory.within_iff]
  intro c hc
  obtain ⟨a, hmem, ha⟩ := List.mem_filterMap.mp hc
  simp only [Option.ite_none_left_eq_some, Option.some.injEq] at ha
  rw [← ha.2]
  exact List.mem_range.mp hmem

/-- The memory that holds `M0` reads as `M0` at every cell that exists. -/
theorem powerOnMemory_read (n : Nat) (m0 : Nat → Byte) (a : Nat) :
    Memory.read (powerOnMemory n m0) a = if a < n then m0 a else Memory.unlisted := by
  have key : ∀ l : List Nat, Memory.read (l.filterMap fun x => if m0 x = Memory.unlisted then none else some (x, m0 x)) a
      = if a ∈ l then m0 a else Memory.unlisted := by
    intro l
    induction l with
    | nil => rfl
    | cons x l ih =>
      by_cases hx : m0 x = Memory.unlisted
      · by_cases hax : a = x
        · subst hax
          simp [hx, ih]
        · simp [hx, ih, hax]
      · by_cases hax : a = x
        · subst hax
          simp [hx, Memory.read]
        · simp [hx, Memory.read, ih, hax, Ne.symm hax]
  simpa [powerOnMemory] using key (List.range n)

end Sys2Proof.Machine
end

