-- ==== Sys2Proof/Laws/State.lean ====
section
/-! SUPPORT. One lemma per field of State per update, so that no proof unfolds a record update. -/

namespace Sys2Proof.Machine

/-! ### State.setA -/

@[simp] theorem State.setA_cfg (s : State) (v : Nat) : (s.setA v).cfg = s.cfg := rfl
@[simp] theorem State.setA_regA (s : State) (v : Nat) : (s.setA v).regA = v := rfl
@[simp] theorem State.setA_regB (s : State) (v : Nat) : (s.setA v).regB = s.regB := rfl
@[simp] theorem State.setA_pc (s : State) (v : Nat) : (s.setA v).pc = s.pc := rfl
@[simp] theorem State.setA_mem (s : State) (v : Nat) : (s.setA v).mem = s.mem := rfl
@[simp] theorem State.setA_ir (s : State) (v : Nat) : (s.setA v).ir = s.ir := rfl
@[simp] theorem State.setA_opnd (s : State) (v : Nat) : (s.setA v).opnd = s.opnd := rfl
@[simp] theorem State.setA_overflow (s : State) (v : Nat) : (s.setA v).overflow = s.overflow := rfl
@[simp] theorem State.setA_halted (s : State) (v : Nat) : (s.setA v).halted = s.halted := rfl
@[simp] theorem State.setA_faulted (s : State) (v : Nat) : (s.setA v).faulted = s.faulted := rfl
@[simp] theorem State.setA_outputWasWritten (s : State) (v : Nat) : (s.setA v).outputWasWritten = s.outputWasWritten := rfl
@[simp] theorem State.setA_inQ (s : State) (v : Nat) : (s.setA v).inQ = s.inQ := rfl
@[simp] theorem State.setA_outQ (s : State) (v : Nat) : (s.setA v).outQ = s.outQ := rfl

/-! ### State.setB -/

@[simp] theorem State.setB_cfg (s : State) (v : Nat) : (s.setB v).cfg = s.cfg := rfl
@[simp] theorem State.setB_regA (s : State) (v : Nat) : (s.setB v).regA = s.regA := rfl
@[simp] theorem State.setB_regB (s : State) (v : Nat) : (s.setB v).regB = v := rfl
@[simp] theorem State.setB_pc (s : State) (v : Nat) : (s.setB v).pc = s.pc := rfl
@[simp] theorem State.setB_mem (s : State) (v : Nat) : (s.setB v).mem = s.mem := rfl
@[simp] theorem State.setB_ir (s : State) (v : Nat) : (s.setB v).ir = s.ir := rfl
@[simp] theorem State.setB_opnd (s : State) (v : Nat) : (s.setB v).opnd = s.opnd := rfl
@[simp] theorem State.setB_overflow (s : State) (v : Nat) : (s.setB v).overflow = s.overflow := rfl
@[simp] theorem State.setB_halted (s : State) (v : Nat) : (s.setB v).halted = s.halted := rfl
@[simp] theorem State.setB_faulted (s : State) (v : Nat) : (s.setB v).faulted = s.faulted := rfl
@[simp] theorem State.setB_outputWasWritten (s : State) (v : Nat) : (s.setB v).outputWasWritten = s.outputWasWritten := rfl
@[simp] theorem State.setB_inQ (s : State) (v : Nat) : (s.setB v).inQ = s.inQ := rfl
@[simp] theorem State.setB_outQ (s : State) (v : Nat) : (s.setB v).outQ = s.outQ := rfl

/-! ### State.setPc -/

@[simp] theorem State.setPc_cfg (s : State) (t : Nat) : (s.setPc t).cfg = s.cfg := rfl
@[simp] theorem State.setPc_regA (s : State) (t : Nat) : (s.setPc t).regA = s.regA := rfl
@[simp] theorem State.setPc_regB (s : State) (t : Nat) : (s.setPc t).regB = s.regB := rfl
@[simp] theorem State.setPc_pc (s : State) (t : Nat) : (s.setPc t).pc = t := rfl
@[simp] theorem State.setPc_mem (s : State) (t : Nat) : (s.setPc t).mem = s.mem := rfl
@[simp] theorem State.setPc_ir (s : State) (t : Nat) : (s.setPc t).ir = s.ir := rfl
@[simp] theorem State.setPc_opnd (s : State) (t : Nat) : (s.setPc t).opnd = s.opnd := rfl
@[simp] theorem State.setPc_overflow (s : State) (t : Nat) : (s.setPc t).overflow = s.overflow := rfl
@[simp] theorem State.setPc_halted (s : State) (t : Nat) : (s.setPc t).halted = s.halted := rfl
@[simp] theorem State.setPc_faulted (s : State) (t : Nat) : (s.setPc t).faulted = s.faulted := rfl
@[simp] theorem State.setPc_outputWasWritten (s : State) (t : Nat) : (s.setPc t).outputWasWritten = s.outputWasWritten := rfl
@[simp] theorem State.setPc_inQ (s : State) (t : Nat) : (s.setPc t).inQ = s.inQ := rfl
@[simp] theorem State.setPc_outQ (s : State) (t : Nat) : (s.setPc t).outQ = s.outQ := rfl

/-! ### State.setOverflow -/

@[simp] theorem State.setOverflow_cfg (s : State) (f : Bool) : (s.setOverflow f).cfg = s.cfg := rfl
@[simp] theorem State.setOverflow_regA (s : State) (f : Bool) : (s.setOverflow f).regA = s.regA := rfl
@[simp] theorem State.setOverflow_regB (s : State) (f : Bool) : (s.setOverflow f).regB = s.regB := rfl
@[simp] theorem State.setOverflow_pc (s : State) (f : Bool) : (s.setOverflow f).pc = s.pc := rfl
@[simp] theorem State.setOverflow_mem (s : State) (f : Bool) : (s.setOverflow f).mem = s.mem := rfl
@[simp] theorem State.setOverflow_ir (s : State) (f : Bool) : (s.setOverflow f).ir = s.ir := rfl
@[simp] theorem State.setOverflow_opnd (s : State) (f : Bool) : (s.setOverflow f).opnd = s.opnd := rfl
@[simp] theorem State.setOverflow_overflow (s : State) (f : Bool) : (s.setOverflow f).overflow = f := rfl
@[simp] theorem State.setOverflow_halted (s : State) (f : Bool) : (s.setOverflow f).halted = s.halted := rfl
@[simp] theorem State.setOverflow_faulted (s : State) (f : Bool) : (s.setOverflow f).faulted = s.faulted := rfl
@[simp] theorem State.setOverflow_outputWasWritten (s : State) (f : Bool) : (s.setOverflow f).outputWasWritten = s.outputWasWritten := rfl
@[simp] theorem State.setOverflow_inQ (s : State) (f : Bool) : (s.setOverflow f).inQ = s.inQ := rfl
@[simp] theorem State.setOverflow_outQ (s : State) (f : Bool) : (s.setOverflow f).outQ = s.outQ := rfl

/-! ### State.setHalted -/

@[simp] theorem State.setHalted_cfg (s : State) : s.setHalted.cfg = s.cfg := rfl
@[simp] theorem State.setHalted_regA (s : State) : s.setHalted.regA = s.regA := rfl
@[simp] theorem State.setHalted_regB (s : State) : s.setHalted.regB = s.regB := rfl
@[simp] theorem State.setHalted_pc (s : State) : s.setHalted.pc = s.pc := rfl
@[simp] theorem State.setHalted_mem (s : State) : s.setHalted.mem = s.mem := rfl
@[simp] theorem State.setHalted_ir (s : State) : s.setHalted.ir = s.ir := rfl
@[simp] theorem State.setHalted_opnd (s : State) : s.setHalted.opnd = s.opnd := rfl
@[simp] theorem State.setHalted_overflow (s : State) : s.setHalted.overflow = s.overflow := rfl
@[simp] theorem State.setHalted_halted (s : State) : s.setHalted.halted = true := rfl
@[simp] theorem State.setHalted_faulted (s : State) : s.setHalted.faulted = s.faulted := rfl
@[simp] theorem State.setHalted_outputWasWritten (s : State) : s.setHalted.outputWasWritten = s.outputWasWritten := rfl
@[simp] theorem State.setHalted_inQ (s : State) : s.setHalted.inQ = s.inQ := rfl
@[simp] theorem State.setHalted_outQ (s : State) : s.setHalted.outQ = s.outQ := rfl

/-! ### State.clearOutputWasWritten -/

@[simp] theorem State.clearOutputWasWritten_cfg (s : State) : s.clearOutputWasWritten.cfg = s.cfg := rfl
@[simp] theorem State.clearOutputWasWritten_regA (s : State) : s.clearOutputWasWritten.regA = s.regA := rfl
@[simp] theorem State.clearOutputWasWritten_regB (s : State) : s.clearOutputWasWritten.regB = s.regB := rfl
@[simp] theorem State.clearOutputWasWritten_pc (s : State) : s.clearOutputWasWritten.pc = s.pc := rfl
@[simp] theorem State.clearOutputWasWritten_mem (s : State) : s.clearOutputWasWritten.mem = s.mem := rfl
@[simp] theorem State.clearOutputWasWritten_ir (s : State) : s.clearOutputWasWritten.ir = s.ir := rfl
@[simp] theorem State.clearOutputWasWritten_opnd (s : State) : s.clearOutputWasWritten.opnd = s.opnd := rfl
@[simp] theorem State.clearOutputWasWritten_overflow (s : State) : s.clearOutputWasWritten.overflow = s.overflow := rfl
@[simp] theorem State.clearOutputWasWritten_halted (s : State) : s.clearOutputWasWritten.halted = s.halted := rfl
@[simp] theorem State.clearOutputWasWritten_faulted (s : State) : s.clearOutputWasWritten.faulted = s.faulted := rfl
@[simp] theorem State.clearOutputWasWritten_outputWasWritten (s : State) : s.clearOutputWasWritten.outputWasWritten = false := rfl
@[simp] theorem State.clearOutputWasWritten_inQ (s : State) : s.clearOutputWasWritten.inQ = s.inQ := rfl
@[simp] theorem State.clearOutputWasWritten_outQ (s : State) : s.clearOutputWasWritten.outQ = s.outQ := rfl

/-! ### State.pushOutput -/

@[simp] theorem State.pushOutput_cfg (s : State) (v : Nat) : (s.pushOutput v).cfg = s.cfg := rfl
@[simp] theorem State.pushOutput_regA (s : State) (v : Nat) : (s.pushOutput v).regA = s.regA := rfl
@[simp] theorem State.pushOutput_regB (s : State) (v : Nat) : (s.pushOutput v).regB = s.regB := rfl
@[simp] theorem State.pushOutput_pc (s : State) (v : Nat) : (s.pushOutput v).pc = s.pc := rfl
@[simp] theorem State.pushOutput_mem (s : State) (v : Nat) : (s.pushOutput v).mem = s.mem := rfl
@[simp] theorem State.pushOutput_ir (s : State) (v : Nat) : (s.pushOutput v).ir = s.ir := rfl
@[simp] theorem State.pushOutput_opnd (s : State) (v : Nat) : (s.pushOutput v).opnd = s.opnd := rfl
@[simp] theorem State.pushOutput_overflow (s : State) (v : Nat) : (s.pushOutput v).overflow = s.overflow := rfl
@[simp] theorem State.pushOutput_halted (s : State) (v : Nat) : (s.pushOutput v).halted = s.halted := rfl
@[simp] theorem State.pushOutput_faulted (s : State) (v : Nat) : (s.pushOutput v).faulted = s.faulted := rfl
@[simp] theorem State.pushOutput_outputWasWritten (s : State) (v : Nat) : (s.pushOutput v).outputWasWritten = true := rfl
@[simp] theorem State.pushOutput_inQ (s : State) (v : Nat) : (s.pushOutput v).inQ = s.inQ := rfl
@[simp] theorem State.pushOutput_outQ (s : State) (v : Nat) : (s.pushOutput v).outQ = s.outQ ++ [v] := rfl

/-! ### raiseFault -/

@[simp] theorem raiseFault_cfg (s : State) : (raiseFault s).cfg = s.cfg := rfl
@[simp] theorem raiseFault_regA (s : State) : (raiseFault s).regA = s.regA := rfl
@[simp] theorem raiseFault_regB (s : State) : (raiseFault s).regB = s.regB := rfl
@[simp] theorem raiseFault_pc (s : State) : (raiseFault s).pc = s.pc := rfl
@[simp] theorem raiseFault_mem (s : State) : (raiseFault s).mem = s.mem := rfl
@[simp] theorem raiseFault_ir (s : State) : (raiseFault s).ir = s.ir := rfl
@[simp] theorem raiseFault_opnd (s : State) : (raiseFault s).opnd = s.opnd := rfl
@[simp] theorem raiseFault_overflow (s : State) : (raiseFault s).overflow = s.overflow := rfl
@[simp] theorem raiseFault_halted (s : State) : (raiseFault s).halted = true := rfl
@[simp] theorem raiseFault_faulted (s : State) : (raiseFault s).faulted = true := rfl
@[simp] theorem raiseFault_outputWasWritten (s : State) : (raiseFault s).outputWasWritten = s.outputWasWritten := rfl
@[simp] theorem raiseFault_inQ (s : State) : (raiseFault s).inQ = s.inQ := rfl
@[simp] theorem raiseFault_outQ (s : State) : (raiseFault s).outQ = s.outQ := rfl

/-! ### State.setAluA -/

@[simp] theorem State.setAluA_cfg (s : State) (r : Nat × Bool) : (s.setAluA r).cfg = s.cfg := rfl
@[simp] theorem State.setAluA_regA (s : State) (r : Nat × Bool) : (s.setAluA r).regA = r.1 := rfl
@[simp] theorem State.setAluA_regB (s : State) (r : Nat × Bool) : (s.setAluA r).regB = s.regB := rfl
@[simp] theorem State.setAluA_pc (s : State) (r : Nat × Bool) : (s.setAluA r).pc = s.pc := rfl
@[simp] theorem State.setAluA_mem (s : State) (r : Nat × Bool) : (s.setAluA r).mem = s.mem := rfl
@[simp] theorem State.setAluA_ir (s : State) (r : Nat × Bool) : (s.setAluA r).ir = s.ir := rfl
@[simp] theorem State.setAluA_opnd (s : State) (r : Nat × Bool) : (s.setAluA r).opnd = s.opnd := rfl
@[simp] theorem State.setAluA_overflow (s : State) (r : Nat × Bool) : (s.setAluA r).overflow = r.2 := rfl
@[simp] theorem State.setAluA_halted (s : State) (r : Nat × Bool) : (s.setAluA r).halted = s.halted := rfl
@[simp] theorem State.setAluA_faulted (s : State) (r : Nat × Bool) : (s.setAluA r).faulted = s.faulted := rfl
@[simp] theorem State.setAluA_outputWasWritten (s : State) (r : Nat × Bool) : (s.setAluA r).outputWasWritten = s.outputWasWritten := rfl
@[simp] theorem State.setAluA_inQ (s : State) (r : Nat × Bool) : (s.setAluA r).inQ = s.inQ := rfl
@[simp] theorem State.setAluA_outQ (s : State) (r : Nat × Bool) : (s.setAluA r).outQ = s.outQ := rfl

/-! ### State.setAluB -/

@[simp] theorem State.setAluB_cfg (s : State) (r : Nat × Bool) : (s.setAluB r).cfg = s.cfg := rfl
@[simp] theorem State.setAluB_regA (s : State) (r : Nat × Bool) : (s.setAluB r).regA = s.regA := rfl
@[simp] theorem State.setAluB_regB (s : State) (r : Nat × Bool) : (s.setAluB r).regB = r.1 := rfl
@[simp] theorem State.setAluB_pc (s : State) (r : Nat × Bool) : (s.setAluB r).pc = s.pc := rfl
@[simp] theorem State.setAluB_mem (s : State) (r : Nat × Bool) : (s.setAluB r).mem = s.mem := rfl
@[simp] theorem State.setAluB_ir (s : State) (r : Nat × Bool) : (s.setAluB r).ir = s.ir := rfl
@[simp] theorem State.setAluB_opnd (s : State) (r : Nat × Bool) : (s.setAluB r).opnd = s.opnd := rfl
@[simp] theorem State.setAluB_overflow (s : State) (r : Nat × Bool) : (s.setAluB r).overflow = r.2 := rfl
@[simp] theorem State.setAluB_halted (s : State) (r : Nat × Bool) : (s.setAluB r).halted = s.halted := rfl
@[simp] theorem State.setAluB_faulted (s : State) (r : Nat × Bool) : (s.setAluB r).faulted = s.faulted := rfl
@[simp] theorem State.setAluB_outputWasWritten (s : State) (r : Nat × Bool) : (s.setAluB r).outputWasWritten = s.outputWasWritten := rfl
@[simp] theorem State.setAluB_inQ (s : State) (r : Nat × Bool) : (s.setAluB r).inQ = s.inQ := rfl
@[simp] theorem State.setAluB_outQ (s : State) (r : Nat × Bool) : (s.setAluB r).outQ = s.outQ := rfl

/-! ### pushInput -/

@[simp] theorem pushInput_cfg (v : Int) (s : State) : (pushInput v s).cfg = s.cfg := rfl
@[simp] theorem pushInput_regA (v : Int) (s : State) : (pushInput v s).regA = s.regA := rfl
@[simp] theorem pushInput_regB (v : Int) (s : State) : (pushInput v s).regB = s.regB := rfl
@[simp] theorem pushInput_pc (v : Int) (s : State) : (pushInput v s).pc = s.pc := rfl
@[simp] theorem pushInput_mem (v : Int) (s : State) : (pushInput v s).mem = s.mem := rfl
@[simp] theorem pushInput_ir (v : Int) (s : State) : (pushInput v s).ir = s.ir := rfl
@[simp] theorem pushInput_opnd (v : Int) (s : State) : (pushInput v s).opnd = s.opnd := rfl
@[simp] theorem pushInput_overflow (v : Int) (s : State) : (pushInput v s).overflow = s.overflow := rfl
@[simp] theorem pushInput_halted (v : Int) (s : State) : (pushInput v s).halted = s.halted := rfl
@[simp] theorem pushInput_faulted (v : Int) (s : State) : (pushInput v s).faulted = s.faulted := rfl
@[simp] theorem pushInput_outputWasWritten (v : Int) (s : State) : (pushInput v s).outputWasWritten = s.outputWasWritten := rfl
@[simp] theorem pushInput_inQ (v : Int) (s : State) : (pushInput v s).inQ = s.inQ ++ [v] := rfl
@[simp] theorem pushInput_outQ (v : Int) (s : State) : (pushInput v s).outQ = s.outQ := rfl

/-! ### pushInputs -/

@[simp] theorem pushInputs_cfg (vs : List Int) (s : State) : (pushInputs vs s).cfg = s.cfg := rfl
@[simp] theorem pushInputs_regA (vs : List Int) (s : State) : (pushInputs vs s).regA = s.regA := rfl
@[simp] theorem pushInputs_regB (vs : List Int) (s : State) : (pushInputs vs s).regB = s.regB := rfl
@[simp] theorem pushInputs_pc (vs : List Int) (s : State) : (pushInputs vs s).pc = s.pc := rfl
@[simp] theorem pushInputs_mem (vs : List Int) (s : State) : (pushInputs vs s).mem = s.mem := rfl
@[simp] theorem pushInputs_ir (vs : List Int) (s : State) : (pushInputs vs s).ir = s.ir := rfl
@[simp] theorem pushInputs_opnd (vs : List Int) (s : State) : (pushInputs vs s).opnd = s.opnd := rfl
@[simp] theorem pushInputs_overflow (vs : List Int) (s : State) : (pushInputs vs s).overflow = s.overflow := rfl
@[simp] theorem pushInputs_halted (vs : List Int) (s : State) : (pushInputs vs s).halted = s.halted := rfl
@[simp] theorem pushInputs_faulted (vs : List Int) (s : State) : (pushInputs vs s).faulted = s.faulted := rfl
@[simp] theorem pushInputs_outputWasWritten (vs : List Int) (s : State) : (pushInputs vs s).outputWasWritten = s.outputWasWritten := rfl
@[simp] theorem pushInputs_inQ (vs : List Int) (s : State) : (pushInputs vs s).inQ = s.inQ ++ vs := rfl
@[simp] theorem pushInputs_outQ (vs : List Int) (s : State) : (pushInputs vs s).outQ = s.outQ := rfl

/-! ### clearForReset -/

@[simp] theorem clearForReset_cfg (s : State) : (clearForReset s).cfg = s.cfg := rfl
@[simp] theorem clearForReset_regA (s : State) : (clearForReset s).regA = 0 := rfl
@[simp] theorem clearForReset_regB (s : State) : (clearForReset s).regB = 0 := rfl
@[simp] theorem clearForReset_pc (s : State) : (clearForReset s).pc = 0 := rfl
@[simp] theorem clearForReset_mem (s : State) : (clearForReset s).mem = s.mem := rfl
@[simp] theorem clearForReset_ir (s : State) : (clearForReset s).ir = 0x00 := rfl
@[simp] theorem clearForReset_opnd (s : State) : (clearForReset s).opnd = 0x00 := rfl
@[simp] theorem clearForReset_overflow (s : State) : (clearForReset s).overflow = false := rfl
@[simp] theorem clearForReset_halted (s : State) : (clearForReset s).halted = false := rfl
@[simp] theorem clearForReset_faulted (s : State) : (clearForReset s).faulted = false := rfl
@[simp] theorem clearForReset_outputWasWritten (s : State) : (clearForReset s).outputWasWritten = false := rfl
@[simp] theorem clearForReset_inQ (s : State) : (clearForReset s).inQ = [] := rfl
@[simp] theorem clearForReset_outQ (s : State) : (clearForReset s).outQ = [] := rfl

/-! ### popOutput -/

@[simp] theorem popOutput_cfg (s : State) : (popOutput s).2.cfg = s.cfg := by
  unfold popOutput; split <;> rfl
@[simp] theorem popOutput_regA (s : State) : (popOutput s).2.regA = s.regA := by
  unfold popOutput; split <;> rfl
@[simp] theorem popOutput_regB (s : State) : (popOutput s).2.regB = s.regB := by
  unfold popOutput; split <;> rfl
@[simp] theorem popOutput_pc (s : State) : (popOutput s).2.pc = s.pc := by
  unfold popOutput; split <;> rfl
@[simp] theorem popOutput_mem (s : State) : (popOutput s).2.mem = s.mem := by
  unfold popOutput; split <;> rfl
@[simp] theorem popOutput_ir (s : State) : (popOutput s).2.ir = s.ir := by
  unfold popOutput; split <;> rfl
@[simp] theorem popOutput_opnd (s : State) : (popOutput s).2.opnd = s.opnd := by
  unfold popOutput; split <;> rfl
@[simp] theorem popOutput_overflow (s : State) : (popOutput s).2.overflow = s.overflow := by
  unfold popOutput; split <;> rfl
@[simp] theorem popOutput_halted (s : State) : (popOutput s).2.halted = s.halted := by
  unfold popOutput; split <;> rfl
@[simp] theorem popOutput_faulted (s : State) : (popOutput s).2.faulted = s.faulted := by
  unfold popOutput; split <;> rfl
@[simp] theorem popOutput_outputWasWritten (s : State) : (popOutput s).2.outputWasWritten = s.outputWasWritten := by
  unfold popOutput; split <;> rfl
@[simp] theorem popOutput_inQ (s : State) : (popOutput s).2.inQ = s.inQ := by
  unfold popOutput; split <;> rfl
@[simp] theorem popOutput_outQ (s : State) : (popOutput s).2.outQ = s.outQ.tail := by
  unfold popOutput; split <;> simp [*]

@[simp] theorem popOutput_fst (s : State) : (popOutput s).1 = s.outQ.head? := by
  unfold popOutput; split <;> simp [*]

/-! ### placeInstruction -/

@[simp] theorem placeInstruction_cfg (s : State) (nbits w : Nat) : (placeInstruction s nbits w).cfg = s.cfg := rfl
@[simp] theorem placeInstruction_regA (s : State) (nbits w : Nat) : (placeInstruction s nbits w).regA = s.regA := rfl
@[simp] theorem placeInstruction_regB (s : State) (nbits w : Nat) : (placeInstruction s nbits w).regB = s.regB := rfl
@[simp] theorem placeInstruction_pc (s : State) (nbits w : Nat) : (placeInstruction s nbits w).pc = s.pc := rfl
@[simp] theorem placeInstruction_mem (s : State) (nbits w : Nat) : (placeInstruction s nbits w).mem = s.mem := rfl
@[simp] theorem placeInstruction_overflow (s : State) (nbits w : Nat) : (placeInstruction s nbits w).overflow = s.overflow := rfl
@[simp] theorem placeInstruction_halted (s : State) (nbits w : Nat) : (placeInstruction s nbits w).halted = s.halted := rfl
@[simp] theorem placeInstruction_faulted (s : State) (nbits w : Nat) : (placeInstruction s nbits w).faulted = s.faulted := rfl
@[simp] theorem placeInstruction_outputWasWritten (s : State) (nbits w : Nat) : (placeInstruction s nbits w).outputWasWritten = s.outputWasWritten := rfl
@[simp] theorem placeInstruction_inQ (s : State) (nbits w : Nat) : (placeInstruction s nbits w).inQ = s.inQ := rfl
@[simp] theorem placeInstruction_outQ (s : State) (nbits w : Nat) : (placeInstruction s nbits w).outQ = s.outQ := rfl
@[simp] theorem placeInstruction_ir (s : State) (nbits w : Nat) : (placeInstruction s nbits w).ir = tableByte nbits w 0 := rfl
@[simp] theorem placeInstruction_opnd (s : State) (nbits w : Nat) :
    (placeInstruction s nbits w).opnd = if hasOperand (tableByte nbits w 0) then tableByte nbits w 1 else 0x00 := rfl

/-! ### refill: the fetch writes `ir`, `opnd` and `pc` only (40_execution_cycle.md R70) -/

@[simp] theorem refill_cfg (s : State) : (refill s).cfg = s.cfg := by
  unfold refill; dsimp only; split <;> rfl
@[simp] theorem refill_regA (s : State) : (refill s).regA = s.regA := by
  unfold refill; dsimp only; split <;> rfl
@[simp] theorem refill_regB (s : State) : (refill s).regB = s.regB := by
  unfold refill; dsimp only; split <;> rfl
@[simp] theorem refill_mem (s : State) : (refill s).mem = s.mem := by
  unfold refill; dsimp only; split <;> rfl
@[simp] theorem refill_overflow (s : State) : (refill s).overflow = s.overflow := by
  unfold refill; dsimp only; split <;> rfl
@[simp] theorem refill_halted (s : State) : (refill s).halted = s.halted := by
  unfold refill; dsimp only; split <;> rfl
@[simp] theorem refill_faulted (s : State) : (refill s).faulted = s.faulted := by
  unfold refill; dsimp only; split <;> rfl
@[simp] theorem refill_outputWasWritten (s : State) : (refill s).outputWasWritten = s.outputWasWritten := by
  unfold refill; dsimp only; split <;> rfl
@[simp] theorem refill_inQ (s : State) : (refill s).inQ = s.inQ := by
  unfold refill; dsimp only; split <;> rfl
@[simp] theorem refill_outQ (s : State) : (refill s).outQ = s.outQ := by
  unfold refill; dsimp only; split <;> rfl
@[simp] theorem refill_ir (s : State) : (refill s).ir = s.mem.read s.pc := by
  unfold refill; dsimp only; split <;> rfl
@[simp] theorem refill_opnd (s : State) : (refill s).opnd =
    if hasOperand (s.mem.read s.pc) then s.mem.read (nextAddress s.cfg s.pc) else 0x00 := by
  unfold refill; dsimp only; split <;> rfl
@[simp] theorem refill_pc (s : State) : (refill s).pc =
    if hasOperand (s.mem.read s.pc) then nextAddress s.cfg (nextAddress s.cfg s.pc) else nextAddress s.cfg s.pc := by
  unfold refill; dsimp only; split <;> rfl

end Sys2Proof.Machine
end

