-- ==== Sys2Proof/Laws/Ops.lean ====
section
/-! SUPPORT. What each shared operation can do, said once: the provers cite these instead of unfolding. -/

namespace Sys2Proof.Machine

/-! ### Results -/

@[simp] theorem andThen_next (s : State) (f : State → Result) : andThen (.next s) f = f s := rfl
@[simp] theorem andThen_fault (e : Fault) (f : State → Result) : andThen (.fault e) f = .fault e := rfl
@[simp] theorem andThen_refused (e : Refusal) (f : State → Result) : andThen (.refused e) f = .refused e := rfl

/-- A sequence answers a next state only through a next state of its first part. -/
theorem andThen_eq_next {r : Result} {f : State → Result} {t : State} (h : andThen r f = .next t) :
    ∃ u, r = .next u ∧ f u = .next t := by
  cases r with
  | next u => exact ⟨u, rfl, h⟩
  | fault e => cases h
  | refused e => cases h

/-! ### Memory operations -/

theorem memRead_in_range {s : State} {a : Nat} (h : a < s.cfg.memsize) (k : Byte → Result) :
    memRead s a k = k (s.mem.read a) := if_pos h

theorem memRead_out_of_range {s : State} {a : Nat} (h : s.cfg.memsize ≤ a) (k : Byte → Result) :
    memRead s a k = .fault (.addressOutOfRange a) := if_neg (not_lt.mpr h)

/-- If a read goes on, the cell exists, and the reader had its byte. -/
theorem memRead_eq_next {s t : State} {a : Nat} {k : Byte → Result} (h : memRead s a k = .next t) :
    a < s.cfg.memsize ∧ k (s.mem.read a) = .next t := by
  unfold memRead at h
  split at h
  · exact ⟨‹_›, h⟩
  · cases h

/-- If a write goes on, the cell exists, and only memory changed. -/
theorem memWrite_eq_next {s t : State} {a : Nat} {v : Byte} (h : memWrite s a v = .next t) :
    a < s.cfg.memsize ∧ t = { s with mem := s.mem.write a v } := by
  unfold memWrite at h
  split at h
  · exact ⟨‹_›, by cases h; rfl⟩
  · cases h

/-! ### The fetch and the tick -/

/-- If a fetch goes on, `pc` was below `memsize`, and the buffer was refilled. -/
theorem fetch_eq_next {s t : State} (h : fetch s = .next t) : s.pc < s.cfg.memsize ∧ t = refill s := by
  unfold fetch at h
  split at h
  · exact ⟨‹_›, by cases h; rfl⟩
  · cases h

theorem nextAddress_lt (c : Config) (pc : Nat) : nextAddress c pc < c.memsize := Nat.mod_lt _ c.memsize_pos

/-- After a refill `pc` is below `memsize` (10_state.md R17). -/
theorem refill_pc_lt (s : State) : (refill s).pc < s.cfg.memsize := by
  rw [refill_pc]
  split <;> exact nextAddress_lt _ _

/-- After a refill the prefetch buffer is well formed (10_state.md R21, R28). -/
theorem refill_buffer_wf (s : State) : bufferWellFormed (refill s).ir (refill s).opnd = true := by
  rw [refill_ir, refill_opnd, bufferWellFormed]
  split <;> simp_all

/-- Everything a step that answers a next state can have done: nothing in a halted state, and otherwise steps 1, 2
and 3 of the tick (40_execution_cycle.md R65, R66). -/
theorem step_cases {s t : State} (h : step s = .next t) :
    (s.halted = true ∧ t = s) ∨
    (s.halted = false ∧ ∃ u, executeBuffer s.clearOutputWasWritten = .next u ∧ u.pc < u.cfg.memsize ∧ t = refill u) := by
  unfold step tick at h
  split at h
  · next hh =>
    cases h
    exact .inl ⟨hh, rfl⟩
  · next hh =>
    obtain ⟨u, hu, hf⟩ := andThen_eq_next h
    obtain ⟨hpc, ht⟩ := fetch_eq_next hf
    exact .inr ⟨by simpa using hh, u, hu, hpc, ht⟩

/-- Step 2 runs the decoded instruction, or nothing for an unassigned opcode (40_execution_cycle.md R68). -/
theorem executeBuffer_cases {s u : State} (h : executeBuffer s = .next u) :
    (∃ i, buffered s = .instr i ∧ exec i s = .next u) ∨ (∃ op, buffered s = .unassigned op ∧ u = s) := by
  unfold executeBuffer at h
  unfold buffered
  split at h
  · next i hi => exact .inl ⟨i, hi, h⟩
  · next op hop =>
    cases h
    exact .inr ⟨op, hop, rfl⟩

/-! ### The jump and the ALU -/

/-- A jump always goes on, and writes at most `pc` (43_control.md R87). -/
theorem jumpWhen_eq (taken : Bool) (addr : Byte) (s : State) :
    jumpWhen taken addr s = .next { s with pc := if taken then addr.toNat else s.pc } := by
  cases taken <;> rfl

theorem Config.modulus_pos (c : Config) : 0 < c.modulus := by
  unfold Config.modulus
  positivity

theorem toWord_lt (c : Config) (v : Nat) : toWord c v < c.modulus := Nat.mod_lt _ (Config.modulus_pos c)

theorem byteToWord_lt (c : Config) (b : Byte) : byteToWord c b < c.modulus := toWord_lt c b.toNat

theorem intToWord_lt (c : Config) (v : Int) : intToWord c v < c.modulus := by
  have hpos : (0 : Int) < c.modulus := by exact_mod_cast Config.modulus_pos c
  have h1 := Int.emod_nonneg v hpos.ne'
  have h2 := Int.emod_lt_of_pos v hpos
  have h3 : intToWord c v = (v % (c.modulus : Int)).toNat := rfl
  omega

/-- Both operations of the ALU answer a word (10_state.md R28). -/
theorem aluAdd_lt (c : Config) (x y : Nat) : (aluAdd c x y).1 < c.modulus := toWord_lt c _

theorem aluSub_lt (c : Config) (x y : Nat) : (aluSub c x y).1 < c.modulus := intToWord_lt c _

/-! ### Host operations -/

/-- Everything a load that succeeds can have done: only memory changed (20_memory.md R48). -/
theorem hostLoad_eq_ok {bytes : List Int} {offset : Int} {s t : State} (h : hostLoad bytes offset s = .ok t) :
    ∃ bs, bytesOf? bytes = some bs ∧ 0 ≤ offset ∧ offset.toNat + bs.length ≤ s.cfg.memsize ∧
      t = { s with mem := s.mem.writeBytes offset.toNat bs } := by
  unfold hostLoad at h
  split at h
  · cases h
  · next bs hbs =>
    split at h
    · cases h
    · next hr =>
      cases h
      exact ⟨bs, hbs, by omega, by omega, rfl⟩

/-- Everything a host operation that returns can have done (10_state.md R33). -/
theorem hostStep_cases {mode : StartMode} {op : HostOp} {s t : State} {r : HostResult}
    (h : hostStep mode op s = .returns t r) :
    t = s ∨ step s = .next t ∨ t = hostReset mode s ∨ (∃ v, t = pushInput v s) ∨ t = (popOutput s).2 ∨
      ∃ bytes offset, hostLoad bytes offset s = .ok t := by
  cases op with
  | load bytes offset =>
    simp only [hostStep, hostLoadOp] at h
    split at h
    · next u hu =>
      cases h
      exact .inr (.inr (.inr (.inr (.inr ⟨bytes, offset, hu⟩))))
    · cases h
      exact .inl rfl
    · cases h
  | reset =>
    cases h
    exact .inr (.inr (.inl rfl))
  | tick =>
    simp only [hostStep, hostTick] at h
    split at h
    · next u hu =>
      cases h
      exact .inr (.inl hu)
    · cases h
    · cases h
  | pushInput v =>
    cases h
    exact .inr (.inr (.inr (.inl ⟨v, rfl⟩)))
  | popOutput =>
    cases h
    exact .inr (.inr (.inr (.inr (.inl rfl))))
  | isHalted =>
    cases h
    exact .inl rfl
  | isFaulted =>
    cases h
    exact .inl rfl
  | outputWasWritten =>
    cases h
    exact .inl rfl
  | inspect =>
    cases h
    exact .inl rfl

/-- `State.reset` is the machine after construction with the default parameters and `M0` all zeros (10_state.md R36,
R37). -/
theorem reset_eq_construct : State.reset = construct {} .resetPrefetch fun _ => 0x00 := by decide

/-- The memory of `State.reset` is in canonical form. -/
theorem reset_mem_wf : State.reset.mem.wf = true := by decide

end Sys2Proof.Machine
end

