-- ==== Sys2Proof/Laws/PerInstr.lean ====
section
/-! SUPPORT. Statements made per instruction: one lemma per constructor of `Instr`. -/

namespace Sys2Proof.Laws

/-- The encoding of an instruction is one whole instruction by bit 7 of its opcode (30_encoding.md R54), and its
opcode is that of its mnemonic's row in the InstructionTable (R59). -/
def EncodingShape.Statement (i : Instr) : Prop :=
  oneInstruction (encode i) = true ∧
    ∃ r ∈ instructionTable, r.mnemonic = i.mnemonic ∧ (encode i).head? = some r.opcode

theorem EncodingShape.nop : EncodingShape.Statement .nop := ⟨rfl, ⟨0x00, .nop, .none⟩, by decide, rfl, rfl⟩
theorem EncodingShape.swap : EncodingShape.Statement .swap := ⟨rfl, ⟨0x01, .swap, .none⟩, by decide, rfl, rfl⟩
theorem EncodingShape.add : EncodingShape.Statement .add := ⟨rfl, ⟨0x02, .add, .none⟩, by decide, rfl, rfl⟩
theorem EncodingShape.sub : EncodingShape.Statement .sub := ⟨rfl, ⟨0x03, .sub, .none⟩, by decide, rfl, rfl⟩
theorem EncodingShape.write : EncodingShape.Statement .write := ⟨rfl, ⟨0x04, .write, .none⟩, by decide, rfl, rfl⟩
theorem EncodingShape.read : EncodingShape.Statement .read := ⟨rfl, ⟨0x05, .read, .none⟩, by decide, rfl, rfl⟩
theorem EncodingShape.halt : EncodingShape.Statement .halt := ⟨rfl, ⟨0x06, .halt, .none⟩, by decide, rfl, rfl⟩
theorem EncodingShape.loadi : EncodingShape.Statement .loadi := ⟨rfl, ⟨0x07, .loadi, .none⟩, by decide, rfl, rfl⟩
theorem EncodingShape.savei : EncodingShape.Statement .savei := ⟨rfl, ⟨0x08, .savei, .none⟩, by decide, rfl, rfl⟩
theorem EncodingShape.load (x : Byte) : EncodingShape.Statement (.load x) :=
  ⟨rfl, ⟨0x80, .load, .address⟩, by decide, rfl, rfl⟩
theorem EncodingShape.save (x : Byte) : EncodingShape.Statement (.save x) :=
  ⟨rfl, ⟨0x81, .save, .address⟩, by decide, rfl, rfl⟩
theorem EncodingShape.jump (x : Byte) : EncodingShape.Statement (.jump x) :=
  ⟨rfl, ⟨0x92, .jump, .address⟩, by decide, rfl, rfl⟩
theorem EncodingShape.jumpz (x : Byte) : EncodingShape.Statement (.jumpz x) :=
  ⟨rfl, ⟨0x93, .jumpz, .address⟩, by decide, rfl, rfl⟩
theorem EncodingShape.jumpnz (x : Byte) : EncodingShape.Statement (.jumpnz x) :=
  ⟨rfl, ⟨0x94, .jumpnz, .address⟩, by decide, rfl, rfl⟩
theorem EncodingShape.jumpo (x : Byte) : EncodingShape.Statement (.jumpo x) :=
  ⟨rfl, ⟨0x95, .jumpo, .address⟩, by decide, rfl, rfl⟩
theorem EncodingShape.addl (x : Byte) : EncodingShape.Statement (.addl x) :=
  ⟨rfl, ⟨0xA0, .addl, .literal⟩, by decide, rfl, rfl⟩
theorem EncodingShape.subl (x : Byte) : EncodingShape.Statement (.subl x) :=
  ⟨rfl, ⟨0xA1, .subl, .literal⟩, by decide, rfl, rfl⟩
theorem EncodingShape.addlb (x : Byte) : EncodingShape.Statement (.addlb x) :=
  ⟨rfl, ⟨0xA2, .addlb, .literal⟩, by decide, rfl, rfl⟩
theorem EncodingShape.set (x : Byte) : EncodingShape.Statement (.set x) :=
  ⟨rfl, ⟨0xA6, .set, .literal⟩, by decide, rfl, rfl⟩
theorem EncodingShape.setb (x : Byte) : EncodingShape.Statement (.setb x) :=
  ⟨rfl, ⟨0xA7, .setb, .literal⟩, by decide, rfl, rfl⟩

end Sys2Proof.Laws
end

