-- ==== Sys2Proof/Tests/Slice0.lean ====
section
/-! SUPPORT. The model's own tests. Expected values are the spec's: 95_test_vectors.md (TA, TQ, TC, TM, TF, TH, TS and
L1 numbers), or words written out from 30_encoding.md R59. Witness theorems meet the hypotheses of the statements of
Certificates/Slice0/Obligations.lean, one for each clause at a boundary value. -/

namespace Sys2Proof.Tests

open Sys2Proof.Machine

/-! ### Well-formedness: each check refuses an ill-formed term -/

theorem test_legalConfig_refuses_width : legalConfig 12 256 = false := by decide
theorem test_legalConfig_refuses_empty_memory : legalConfig 8 0 = false := by decide
theorem test_make_refuses_width : Config.make? 12 256 = none := by decide
theorem test_make_refuses_empty_memory : Config.make? 8 0 = none := by decide
theorem test_wellFormed_refuses_missing_cell : (Instr.jump 0x10).wellFormed 16 = false := by decide
theorem test_wellFormed_accepts_last_cell : (Instr.jump 0x0F).wellFormed 16 = true := by decide
theorem test_buffer_refuses_operand : bufferWellFormed 0x05 0x01 = false := by decide
theorem test_oneInstruction_refuses_missing_operand : oneInstruction [0x80] = false := by decide
theorem test_oneInstruction_refuses_extra_byte : oneInstruction [0x00, 0x01] = false := by decide

/-! ### Decoding: every row's word, written out from 30_encoding.md R59 -/

theorem test_decode_nop : decodeTableWord 8 0b00000000 = some .nop := by decide
theorem test_decode_swap : decodeTableWord 8 0b00000001 = some .swap := by decide
theorem test_decode_add : decodeTableWord 8 0b00000010 = some .add := by decide
theorem test_decode_sub : decodeTableWord 8 0b00000011 = some .sub := by decide
theorem test_decode_write : decodeTableWord 8 0b00000100 = some .write := by decide
theorem test_decode_read : decodeTableWord 8 0b00000101 = some .read := by decide
theorem test_decode_halt : decodeTableWord 8 0b00000110 = some .halt := by decide
theorem test_decode_loadi : decodeTableWord 8 0b00000111 = some .loadi := by decide
theorem test_decode_savei : decodeTableWord 8 0b00001000 = some .savei := by decide
theorem test_decode_load : decodeTableWord 16 0b01000000_10000000 = some (.load 0x40) := by decide
theorem test_decode_save : decodeTableWord 16 0b00110000_10000001 = some (.save 0x30) := by decide
theorem test_decode_jump : decodeTableWord 16 0b00000100_10010010 = some (.jump 0x04) := by decide
theorem test_decode_jumpz : decodeTableWord 16 0b00010000_10010011 = some (.jumpz 0x10) := by decide
theorem test_decode_jumpnz : decodeTableWord 16 0b00000010_10010100 = some (.jumpnz 0x02) := by decide
theorem test_decode_jumpo : decodeTableWord 16 0b00100000_10010101 = some (.jumpo 0x20) := by decide
theorem test_decode_addl : decodeTableWord 16 0b00000001_10100000 = some (.addl 0x01) := by decide
theorem test_decode_subl : decodeTableWord 16 0b00010000_10100001 = some (.subl 0x10) := by decide
theorem test_decode_addlb : decodeTableWord 16 0b00000011_10100010 = some (.addlb 0x03) := by decide
theorem test_decode_set : decodeTableWord 16 0b11001000_10100110 = some (.set 0xC8) := by decide
theorem test_decode_setb : decodeTableWord 16 0b00010011_10100111 = some (.setb 0x13) := by decide
theorem test_decode_operand_zero : decodeTableWord 8 0x80 = some (.load 0x00) := by decide
theorem test_decode_unassigned : decodeTableWord 16 0x1282 = none := by decide
theorem test_decode_missing_operand : decodeBytes [0xFF] = .error (.missingOperand 0xFF) := by rfl

/-! ### States -/

/-- A running state of a machine of configuration `c`, with zero registers, empty queues and memory `m`. -/
def st (c : Config) (a b : Nat) (m : Memory := []) : State :=
  { cfg := c, regA := a, regB := b, pc := 0, mem := m, ir := 0, opnd := 0, overflow := false, halted := false,
    faulted := false, outputWasWritten := false, inQ := [], outQ := [] }

/-- The next state, if there is one. -/
def nextOf : Result → Option State
  | .next s => some s
  | _ => none

/-- A and the overflow flag of the next state. -/
def aAndOverflow (r : Result) : Option (Nat × Bool) := (nextOf r).map fun s => (s.regA, s.overflow)

/-- B and the overflow flag of the next state. -/
def bAndOverflow (r : Result) : Option (Nat × Bool) := (nextOf r).map fun s => (s.regB, s.overflow)

/-- `s` with its prefetch buffer holding `i`. -/
def holding (i : Instr) (s : State) : State :=
  { s with ir := (encode i).headD 0, opnd := ((encode i).drop 1).headD 0 }

def w4 : Config := { width := .w4 }
def w8 : Config := { width := .w8 }
def w16 : Config := { width := .w16 }
def w64 : Config := { width := .w64 }

/-- The memory sizes of vectors TM2 to TM5 and TC10. -/
def small : Config := { memsize := 16 }

/-! ### ALU and register instructions (L2-A) -/

theorem test_add_TA1 : aAndOverflow (exec .add (st w8 200 100)) = some (44, true) := by decide
theorem test_add_TA2_maxint : aAndOverflow (exec .add (st w8 100 155)) = some (255, false) := by decide
theorem test_sub_TA4 : aAndOverflow (exec .sub (st w8 5 7)) = some (254, true) := by decide
theorem test_sub_TA25_w64 : aAndOverflow (exec .sub (st w64 0 (2 ^ 64 - 1))) = some (1, true) := by decide
theorem test_addl_TA7 : aAndOverflow (exec (.addl 0x01) (st w8 0xFF 0)) = some (0, true) := by decide
theorem test_addl_TA16_w4 : aAndOverflow (exec (.addl 0x20) (st w4 3 0)) = some (3, true) := by decide
theorem test_subl_TA8 : aAndOverflow (exec (.subl 0x10) (st w8 0x10 0)) = some (0, false) := by decide
theorem test_subl_TA17_w4 : aAndOverflow (exec (.subl 0x10) (st w4 3 0)) = some (3, true) := by decide
theorem test_addlb_TA10 : bAndOverflow (exec (.addlb 0x03) (st w8 5 0xFE)) = some (1, true) := by decide
theorem test_addlb_TA10_keeps_A : aAndOverflow (exec (.addlb 0x03) (st w8 5 0xFE)) = some (5, true) := by decide
theorem test_set_TA20_w4 : aAndOverflow (exec (.set 0xC8) (st w4 0 0)) = some (8, false) := by decide
theorem test_setb_TA21_w4 : bAndOverflow (exec (.setb 0x13) (st w4 0 0)) = some (3, false) := by decide
theorem test_swap_TA13 : (nextOf (exec .swap (st w8 1 2))).map (fun s => (s.regA, s.regB)) = some (2, 1) := by decide
theorem test_nop_TA26 : nextOf (exec .nop (st w8 9 9)) = some (st w8 9 9) := by decide
theorem test_unassigned_TA28_skips_operand :
    (nextOf (step { st w8 9 9 [(0, 0xFF), (1, 0x12), (2, 0x06)] with ir := 0xFF, opnd := 0x12, pc := 2 })).map
      (fun s => (s.regA, s.ir, s.pc)) = some (9, 0x06, 3) := by decide

/-! ### Queue instructions (L2-Q) -/

theorem test_write_TQ2 : (nextOf (exec .write (st w16 300 0))).map (fun s => (s.outQ, s.outputWasWritten)) =
    some ([300], true) := by decide
theorem test_read_TQ3 : (nextOf (exec .read { st w8 0 0 with inQ := [7, 9] })).map (fun s => (s.regA, s.inQ)) =
    some (7, [9]) := by decide
theorem test_read_TQ6_negative : aAndOverflow (exec .read { st w8 0 0 with inQ := [-1] }) = some (255, false) := by decide
theorem test_read_TQ4_empty : aAndOverflow (exec .read (st w8 5 0)) = some (0, false) := by decide
theorem test_tick_TQ8_clears_flag :
    (nextOf (step { st w8 0 0 with outputWasWritten := true })).map (·.outputWasWritten) = some false := by decide

/-! ### Control instructions (L2-C) -/

theorem test_halt_TC1 : (nextOf (step (holding .halt (st w8 0 0)))).map (fun s => (s.halted, s.faulted, s.pc)) =
    some (true, false, 1) := by decide
theorem test_halted_TC2 : nextOf (step { st w8 0 0 with halted := true }) = some { st w8 0 0 with halted := true } := by
  decide
theorem test_jump_TC3 : (nextOf (step (holding (.jump 0x04) (st w8 0 0 [(4, 0x06)])))).map (fun s => (s.ir, s.pc)) =
    some (0x06, 5) := by decide
theorem test_jumpz_TC5_not_taken : (nextOf (exec (.jumpz 0x10) (st w8 1 0))).map (·.pc) = some 0 := by decide
theorem test_jumpz_TC11_w16 : (nextOf (exec (.jumpz 0x10) (st w16 0x0100 0))).map (·.pc) = some 0 := by decide
theorem test_jumpnz_TC6 : (nextOf (exec (.jumpnz 0x02) (st w8 3 0))).map (·.pc) = some 2 := by decide
theorem test_jumpnz_TC7_not_taken : (nextOf (exec (.jumpnz 0x02) (st w8 0 0))).map (·.pc) = some 0 := by decide
theorem test_jumpo_TC8 : (nextOf (exec (.jumpo 0x20) { st w8 0 0 with overflow := true })).map
    (fun s => (s.pc, s.overflow)) = some (0x20, true) := by decide
theorem test_jump_TC10_beyond_memory : step (holding (.jump 0x20) (st small 0 0)) = .fault (.fetchOutOfRange 0x20) := by rfl

/-! ### Memory instructions (L2-M) -/

theorem test_loadi_TM1 : aAndOverflow (exec .loadi (st w8 0 0x10 [(0x10, 0x2A)])) = some (0x2A, false) := by decide
theorem test_loadi_TM3_faults : (nextOf (exec .loadi (st small 3 0x10))).map (fun s => (s.faulted, s.halted, s.regA)) =
    some (true, true, 3) := by decide
theorem test_savei_TM6 : (nextOf (exec .savei (st w16 0x1234 0x20))).map (·.mem) = some [(0x20, 0x34)] := by decide
theorem test_savei_TM4_faults : (nextOf (exec .savei (st w16 5 0x0100))).map (fun s => (s.faulted, s.mem)) =
    some (true, []) := by decide
theorem test_load_TM9_w4 : aAndOverflow (exec (.load 0x40) (st w4 0 0 [(0x40, 0xFF)])) = some (15, false) := by decide
theorem test_load_TM11_beyond_memory : exec (.load 0x20) (st small 0 0) = .fault (.addressOutOfRange 0x20) := by rfl
theorem test_save_TM10 : (nextOf (exec (.save 0x30) (st w16 0x0141 0))).map (·.mem) = some [(0x30, 0x41)] := by decide
theorem test_save_TM13_seen_by_fetch :
    (nextOf (step { holding (.save 0x04) (st w8 0x06 0 [(4, 0x04)]) with pc := 4 })).map (fun s => (s.ir, s.mem)) =
      some (0x06, [(4, 0x06)]) := by decide

/-! ### Fetch and reset (L2-F, L2-H) -/

theorem test_fetch_TF1_wraps : (nextOf (fetch { st { memsize := 4 } 0 0 [(0, 0x05), (3, 0xA6)] with pc := 3 })).map
    (fun s => (s.ir, s.opnd, s.pc)) = some (0xA6, 0x05, 1) := by decide
theorem test_reset_TF3 : (fun s => (s.ir, s.opnd, s.pc)) (hostReset .resetPrefetch (st w8 7 7 [(0, 0x92), (1, 0x07)])) =
    (0x92, 0x07, 2) := by decide
theorem test_reset_TF5_one_cell : (fun s => (s.ir, s.opnd, s.pc)) (hostReset .resetPrefetch (st { memsize := 1 } 0 0 [(0, 0x80)])) =
    (0x80, 0x80, 0) := by decide
theorem test_load_out_of_range : hostLoad [1, 2] 255 (st w8 0 0) = .outOfRange := by decide
theorem test_load_refuses_non_byte : hostLoad [256] 0 (st w8 0 0) = .notBytes := by decide
theorem test_load_TH2_stale_prefetch : hostLoad [0x06] 2 { st w8 0 0 with ir := 0x04 } =
    .ok { st w8 0 0 [(2, 0x06)] with ir := 0x04 } := by decide
theorem test_withFetchWord_runs : (nextOf (step (State.reset.withFetchWord 16 0x05A6))).map (·.regA) = some 5 := by decide

/-! ### Assembler (L2-S, L1) -/

/-- The bytes of a text assembled for `memsize` cells, or its error. -/
def asm (memsize : Nat) (source : String) : Option (List Byte) × Option AssemblyError :=
  match assembleText memsize source.toList with
  | .ok bytes => (some bytes, none)
  | .error e => (none, some e)

theorem test_asm_TS1 : asm 256 "set 05" = (some [0xA6, 0x05], none) := by decide +kernel
theorem test_asm_TS2 : asm 256 "  # comment" = (some [], none) := by decide +kernel
theorem test_asm_TS3 : asm 256 "ADD 01" = (none, some ⟨.malformedOperand, 1⟩) := by decide +kernel
theorem test_asm_TS4 : asm 256 "JUMP" = (none, some ⟨.missingOperand, 1⟩) := by decide +kernel
theorem test_asm_TS6 : asm 256 "JUMP 0x10" = (none, some ⟨.malformedOperand, 1⟩) := by decide +kernel
theorem test_asm_TS7 : asm 256 "SET 01 02" = (none, some ⟨.malformedOperand, 1⟩) := by decide +kernel
theorem test_asm_TS9 : asm 256 "a:\nA:" = (none, some ⟨.duplicateLabel, 2⟩) := by decide +kernel
theorem test_asm_TS10 : asm 256 "loop: ADD" = (none, some ⟨.unknownMnemonic, 1⟩) := by decide +kernel
theorem test_asm_TS11 : asm 256 "STR hi\\n" = (some [0x68, 0x69, 0x0A, 0x00], none) := by decide +kernel
theorem test_asm_TS13 : asm 256 "STR a\\x41" = (some [0x61, 0x41, 0x00], none) := by decide +kernel
theorem test_asm_TS14 : asm 256 "STR a\\q" = (none, some ⟨.malformedOperand, 1⟩) := by decide +kernel
theorem test_asm_TS15 : asm 256 "HEX 0a FF 10" = (some [0x0A, 0xFF, 0x10], none) := by decide +kernel
theorem test_asm_TS16 : asm 256 "HEX ABC" = (none, some ⟨.malformedOperand, 1⟩) := by decide +kernel
theorem test_asm_TS17 : asm 256 "SETB :data\nHALT\ndata:\nHEX 2A" = (some [0xA7, 0x03, 0x06, 0x2A], none) := by decide +kernel
theorem test_asm_TS19 : asm 256 "JUMP :x\nSET :y\nx:" = (none, some ⟨.unresolvedLabel, 2⟩) := by decide +kernel
theorem test_asm_L1_1 : asm 256 "SET 05\nWRITE\nHALT" = (some [0xA6, 0x05, 0x04, 0x06], none) := by decide +kernel
theorem test_asm_L1_2 : asm 256 "JUMP :end\nSET 01\nend:\nHALT" = (some [0x92, 0x04, 0xA6, 0x01, 0x06], none) := by decide +kernel
theorem test_asm_L1_7 : asm 4 "SET 01\nSET 02\nHALT" = (none, some ⟨.programTooLarge, 3⟩) := by decide +kernel
theorem test_asm_CRLF : asm 256 "WRITE\r\nHALT\r\n" = (some [0x04, 0x06], none) := by decide +kernel
/-- TS18: a label at offset 256 or more cannot be referred to. -/
theorem test_resolve_TS18 :
    (resolve { AsmState.init with buf := [0x92, 0], labels := [(['f'], 258)], patches := [⟨['f'], 1, 1⟩], phase := .resolving }).phase =
      .failed .labelOutOfRange 1 := by decide

/-! ### Witnesses: states and operands that meet the statements' hypotheses -/

/-- The last cell of a 16-cell machine is the boundary address. -/
def edge (i : Instr) (a b : Nat) (m : Memory := []) : State := { holding i (st small a b m) with pc := 15 }

theorem witness_DecodedBytesAreTheEncoding : decodeBytes [0xA6, 0xFF, 0x00] = .ok (.instr (.set 0xFF), [0x00]) := by rfl
theorem witness_DecodeFollowsTheTable :
    (⟨0xA7, .setb, .literal⟩ ∈ instructionTable) ∧ ∀ r ∈ instructionTable, r.opcode ≠ 0xA8 := by decide
theorem witness_UnassignedOpcodesAreNoOps :
    lookupOpcode 0x7F = none ∧ (edge .nop 0 0).halted = false ∧
    buffered { edge .nop 0 0 with ir := 0x09 } = .unassigned 0x09 ∧ (edge .nop 0 0).pc < small.memsize := by decide
theorem witness_AcceptedConfigurations : Config.make? 64 1 = some { width := .w64, memsize := 1 } := by decide
theorem witness_NopHasNoEffect :
    (edge .nop 3 4).halted = false ∧ buffered (edge .nop 3 4) = .instr .nop ∧ (edge .nop 3 4).pc < small.memsize := by decide
theorem witness_SwapExchangesRegisters : (st w8 9 9).regA = (st w8 9 9).regB := by decide
theorem witness_Add_maxint : (st w8 100 155).regA + (st w8 100 155).regB = w8.maxint := by decide
theorem witness_Add_modulus : (st w8 100 156).regA + (st w8 100 156).regB = w8.modulus := by decide
theorem witness_Addl_word : (st w4 15 15).regA < w4.modulus ∧ (st w4 15 15).regB < w4.modulus := by decide
theorem witness_Examples : (st w8 200 100).cfg.width = .w8 ∧ (st w4 1 0).cfg.width = .w4 ∧ (st w16 0 0).cfg.width = .w16 := by
  decide
theorem witness_SetAndSetb_wide : (st w8 0 0).cfg.width ≠ .w4 := by decide
theorem witness_WriteAppendsA : (edge .write 15 0).halted = false ∧ buffered (edge .write 15 0) = .instr .write ∧
    (nextOf (step (edge .write 15 0))).isSome = true ∧ buffered { edge .nop 0 0 with ir := 0x09 } ≠ .instr .write ∧
    (nextOf (step { edge .nop 0 0 with ir := 0x09 })).isSome = true := by decide
theorem witness_Read : ({ st w8 0 0 with inQ := [300] } : State).inQ = [300] ∧
    ({ st w8 0 0 with inQ := [-1, 2] } : State).inQ = [-1, 2] ∧ (st w8 0 0).inQ = [] := by decide
theorem witness_HaltSetsHalted : (edge .halt 0 0).halted = false ∧ buffered (edge .halt 0 0) = .instr .halt ∧
    (edge .halt 0 0).pc < small.memsize := by decide
theorem witness_indexed_in_range : (st small 0 15).regB < small.memsize := by decide
theorem witness_indexed_beyond : small.memsize ≤ (st small 0 16).regB := by decide
theorem witness_faulted_changes : exec .savei (st small 0 16) = .next { st small 0 16 with faulted := true, halted := true } := by
  rfl
theorem witness_named_cell : (0x0F : Byte).toNat < small.memsize := by decide
theorem witness_StepRuns : (edge .add 1 2).halted = false ∧ decode (edge .add 1 2).ir (edge .add 1 2).opnd = .instr .add ∧
    decode 0xFF 0x12 = .unassigned 0xFF ∧ decodeTableWord 8 0xA7 = some (.setb 0) := by decide
theorem witness_Fetch : (edge .nop 0 0 [(15, 0x80)]).pc < small.memsize ∧
    hasOperand ((edge .nop 0 0 [(15, 0x80)]).mem.read 15) = true ∧ hasOperand ((edge .nop 0 0).mem.read 15) = false ∧
    small.memsize ≤ ({ edge .nop 0 0 with pc := 16 } : State).pc := by decide
theorem witness_FetchedEncodingIsBuffered : (edge .nop 0 0 [(0, 0x07), (15, 0xA6)]).pc < small.memsize ∧
    ∀ k (h : k < (encode (.set 0x07)).length), (edge .nop 0 0 [(0, 0x07), (15, 0xA6)]).mem.read ((15 + k) % 16) =
      (encode (.set 0x07))[k] := by decide
theorem witness_TakenJump_in_memory : buffered (edge (.jumpz 0x0F) 0 0) = .instr (.jumpz 0x0F) ∧
    takenTarget (.jumpz 0x0F) (edge (.jumpz 0x0F) 0 0) = some 15 ∧ (15 < small.memsize) := by decide
theorem witness_TakenJump_beyond : buffered (edge (.jumpnz 0x10) 1 0) = .instr (.jumpnz 0x10) ∧
    takenTarget (.jumpnz 0x10) (edge (.jumpnz 0x10) 1 0) = some 16 ∧ small.memsize ≤ 16 := by decide
theorem witness_HaltedMachine : ({ st w8 0 0 with halted := true } : State).halted = true := by decide
theorem witness_StoreIsSeen : (edge .savei 6 15).halted = false ∧ buffered (edge .savei 6 15) = .instr .savei ∧
    storeAddress .savei (edge .savei 6 15) = some 15 ∧ storeAddress (.save 0x0F) (edge .nop 0 0) = some 15 ∧
    (edge .savei 6 15).pc < small.memsize := by decide

/-- A state, not the reset state, that meets the invariants. -/
theorem witness_StateInv : StateInv { edge .write 255 15 [(3, 0x01), (15, 0xFF)] with outQ := [255], inQ := [-1] } :=
  ⟨by decide, by decide, by decide, by decide, by decide, by decide, by decide, by decide⟩
theorem witness_StepKeepsTheInvariants :
    ∃ t, step { edge .write 255 15 [(3, 0x01), (15, 0xFF)] with outQ := [255], inQ := [-1] } = .next t := ⟨_, rfl⟩
theorem witness_Reachable_halted : Reachable {} .bubble (fun _ => 0x06)
    (hostReset .bubble (construct {} .bubble fun _ => 0x06)) :=
  .afterOp (op := .reset) (r := .unit) .constructed rfl
/-- A halted state is reachable: two ticks from construction in bubble mode, memory holding HALTs. -/
theorem witness_Reachable_Ended : ∃ s, Reachable { memsize := 2 } .bubble (fun _ => 0x06) s ∧ s.halted = true :=
  ⟨_, .afterOp (op := .tick) (r := .unit) (.afterOp (op := .tick) (r := .unit) .constructed rfl) rfl, rfl⟩
theorem witness_construct_cell : 255 < ({} : Config).memsize := by decide
theorem witness_overflow_written : (nextOf (exec (.addl 1) (st w8 255 0))).map (·.overflow) = some true ∧
    writesOverflow .swap = false ∧ (Instr.jumpz 0x01).mnemonic ≠ .jumpo := by decide
theorem witness_every_instruction_goes_on (x : Byte) (h : x.toNat < 16) :
    (∃ t, exec (.load x) (st small 0 0) = .next t) ∧ ∃ t, exec (.save x) (st small 0 0) = .next t := by
  simp [exec, execLoad, execSave, memRead, memWrite, st, small, h]
theorem witness_pc_writers : fetch (edge .nop 0 0 [(15, 0x80)]) = .next (refill (edge .nop 0 0 [(15, 0x80)])) ∧
    (edge .nop 0 0).pc + 1 = small.memsize ∧ hasOperand (refill (edge .nop 0 0 [(15, 0x80)])).ir = true := by
  refine ⟨rfl, ?_, ?_⟩ <;> decide
theorem witness_hostStep : hostStep .bubble (.pushInput 300) (st w8 0 0) = .returns { st w8 0 0 with inQ := [300] } .unit := by
  rfl
theorem witness_readsA : readsA .read = false ∧ readsA (.save 0xFF) = true ∧ writesA (.addl 0) = true ∧ readsB .write = false ∧ writesA .write = false ∧ writesB .add = false ∧
    raisesFault .loadi (st small 0 16) = true := by decide
theorem witness_control : (edge .loadi 0 16).control = some .running ∧ buffered (edge .loadi 0 16) = .instr .loadi ∧
    (nextOf (step (edge .loadi 0 16))).map (·.control) = some (some .faulted) ∧
    ({ st w8 0 0 with halted := true } : State).control = some .halted ∧
    ({ st w8 0 0 with halted := true, faulted := true } : State).control = some .faulted := by decide
theorem witness_unchecked : uncheckedAddress (.load 0x10) = some 16 ∧ small.memsize ≤ 16 ∧ uncheckedAddress .add = none := by
  decide
theorem witness_TickChanges : (edge (.save 0x0F) 6 0).halted = false ∧ buffered (edge (.save 0x0F) 6 0) = .instr (.save 0x0F) ∧
    (nextOf (step (edge (.save 0x0F) 6 0))).isSome = true ∧ (nextOf (step { edge .nop 0 0 with ir := 0x09 })).isSome = true := by
  decide
theorem witness_LargeMemory : 256 ≤ ({} : Config).memsize ∧ Reachable {} .resetPrefetch (fun _ => 0) (construct {} .resetPrefetch fun _ => 0) :=
  ⟨by decide, .constructed⟩
theorem witness_Load : (0 : Int) ≤ 14 ∧ (14 : Int) + ([1, 2] : List Byte).length ≤ small.memsize ∧
    (small.memsize : Int) < 15 + ([1, 2] : List Byte).length ∧ (∃ v ∈ [(256 : Int)], v < 0 ∨ 255 < v) := by decide
theorem witness_Queue : ({ st w8 0 0 with outQ := [5] } : State).outQ = [5] ∧ (st w8 0 0).outQ = [] := by decide
theorem witness_Harness : nextOf (ticks 2 (edge .write 5 0)) ≠ none ∧
    ticks 1 (edge (.load 0x10) 0 0) = .fault (.addressOutOfRange 16) := by
  refine ⟨by decide, rfl⟩
theorem witness_LaterInput : ({ edge .read 0 0 with inQ := [7] } : State).inQ ≠ [] ∧ buffered (edge .write 0 0) ≠ .instr .read := by
  decide
theorem witness_Reboot : (st w8 1 2 [(0, 0x01)]).mem.wf = true ∧ (st w8 3 4 [(0, 0x02)]).mem.wf = true ∧
    (∀ a, 1 ≤ a → (st w8 1 2 [(0, 0x01)]).mem.read a = (st w8 3 4 [(0, 0x02)]).mem.read a) ∧
    (boot .bubble [0x06] [5] (st w8 1 2 [(0, 0x01)])).isSome = true := by
  refine ⟨by decide, by decide, fun a ha => ?_, by decide⟩
  have h : ¬0 = a := by omega
  simp [st, Memory.read, h]
theorem witness_CanonicalMemories : Memory.wf [(3, 0x01), (15, 0xFF)] = true := by decide
theorem witness_Alu : 255 < w8.modulus ∧ 0 < w8.modulus := by decide
theorem witness_AssembledText : asm 2 "JUMP :a\na:" = (some [0x92, 0x02], none) ∧
    (assembleState 2 "JUMP :a\na:".toList).patches = [⟨['a'], 1, 1⟩] := by decide +kernel
theorem witness_Listing : (([.set 1, .halt] : List Instr).flatMap encode).length ≤ 3 ∧
    2 < (([.set 1, .halt] : List Instr).flatMap encode).length := by decide
theorem witness_label_name : ∀ c ∈ ['H', 'i'], isAscii c = true ∧ isBlank c = false ∧ c ≠ ':' := by
  intro c hc
  fin_cases hc <;> decide
theorem witness_Labels : AsmState.init.phase = .pass1 ∧ (['H', 'i'] : List Char).head? ≠ some '#' ∧
    labelOffset? AsmState.init.labels ['h', 'i'] = none ∧ labelOffset? [(['h', 'i'], 0)] ['h', 'i'] = some 0 := by
  decide
theorem witness_LabelReference : (⟨0xA7, .setb, .literal⟩ : TableRow) ∈ formatIRows ∧
    asciiWord ['s', 'e', 'T', 'b'] = true ∧ ['s', 'e', 'T', 'b'].map Char.toUpper = Mnemonic.setb.text.toList ∧
    asciiWord [':', 'x'] = true ∧ hexByte? 'f' 'F' = some 0xFF ∧ hexByte? 'g' '0' = none ∧
    AsmState.init.buf.length + 2 ≤ 2 ∧ 1 < AsmState.init.buf.length + 2 := by decide
theorem witness_formatN_line : (⟨0x06, .halt, .none⟩ : TableRow) ∈ formatNRows ∧
    ['h', 'A', 'l', 't'].map Char.toUpper = Mnemonic.halt.text.toList ∧ AsmState.init.buf.length + 1 ≤ 1 ∧
    0 < AsmState.init.buf.length + 1 := by decide
theorem witness_unknown_line : (∀ row ∈ instructionTable, [':'].map Char.toUpper ≠ row.mnemonic.text.toList) ∧
    asciiWord [':'] = true ∧ [':'].head? ≠ some '#' ∧ ∀ name : List Char, [':'] = name ++ [':'] → name = [] ∨ ':' ∈ name := by
  refine ⟨by decide, by decide, by decide, fun name h => .inl ?_⟩
  simpa using h
theorem witness_str_pieces : ∀ p ∈ [(['\\', 'x', '4', '1'], 0x41), (['\\', '0'], 0x00), ([' '], (0x20 : Byte))], strPiece p := by
  intro p hp
  fin_cases hp
  · exact .inr (.inl ⟨'4', '1', rfl, by decide⟩)
  · exact .inl (by decide)
  · exact .inr (.inr ⟨' ', rfl, by decide, by decide, rfl⟩)
theorem witness_str_bad : strBad ['\\'] ∧ strBad ['\\', 'q'] ∧ strBad ['\\', 'x', '4'] ∧ strBad [Char.ofNat 128] :=
  ⟨.inl rfl, .inr (.inl ⟨'q', [], rfl, by decide⟩), .inr (.inr (.inl ⟨['4'], rfl, by simp⟩)),
    .inr (.inr (.inr ⟨_, [], rfl, by decide⟩))⟩
theorem witness_Directives : ['s', 'T', 'r'].map Char.toUpper = "STR".toList ∧ ['h', 'e', 'X'].map Char.toUpper = "HEX".toList ∧
    AsmState.init.buf.length + 3 + 1 ≤ 4 ∧ AsmState.init.buf.length ≤ 3 ∧ 3 < AsmState.init.buf.length + 3 + 1 ∧
    hexByte? '0' 'a' = some 0x0A ∧ ([' ', '0', '\t', 'a'].filter fun c => !isBlank c) = ['0', 'a'] ∧
    (['0', 'a', '1'].length % 2 = 1) ∧ 'g' ∉ "0123456789abcdefABCDEF".toList := by decide
theorem witness_no_adds : nextOf (ticks 2 (edge .swap 1 2)) ≠ none ∧ buffered (edge .swap 1 2) = .instr .swap ∧
    (nextOf (ticks 1 (edge .swap 1 2))).map buffered = some (.instr .nop) := by decide
theorem witness_readsB : readsB (.addlb 0) = true ∧ readsB .loadi = true ∧ writesB (.setb 0) = true := by decide
/-- A state with 256 cells that meets the invariants and that a step goes on from. -/
theorem witness_large_StateInv : StateInv { st w8 255 255 [(255, 0xFF)] with pc := 255, ir := 0x92, opnd := 0xFF } :=
  ⟨by decide, by decide, by decide, by decide, by decide, by decide, by decide, by decide⟩

end Sys2Proof.Tests
end

/-! ## The state family (10_state.md)

The layer below says once how each instruction, each tick and each host operation acts on the components of the state;
the obligations of the family follow from it. -/

namespace Sys2Proof.Machine

/-! ### An equation per instruction

`exec` of each instruction as one record update of the old state, so that its frame can be read off. -/

section ExecEquations

variable (s : State) (x : Byte)

@[simp] theorem exec_nop : exec .nop s = .next s := rfl

@[simp] theorem exec_swap : exec .swap s = .next { s with regA := s.regB, regB := s.regA } := rfl

@[simp] theorem exec_add : exec .add s =
    .next { s with regA := (aluAdd s.cfg s.regA s.regB).1, overflow := (aluAdd s.cfg s.regA s.regB).2 } := rfl

@[simp] theorem exec_sub : exec .sub s =
    .next { s with regA := (aluSub s.cfg s.regA s.regB).1, overflow := (aluSub s.cfg s.regA s.regB).2 } := rfl

@[simp] theorem exec_addl : exec (.addl x) s =
    .next { s with regA := (aluAdd s.cfg s.regA x.toNat).1, overflow := (aluAdd s.cfg s.regA x.toNat).2 } := rfl

@[simp] theorem exec_subl : exec (.subl x) s =
    .next { s with regA := (aluSub s.cfg s.regA x.toNat).1, overflow := (aluSub s.cfg s.regA x.toNat).2 } := rfl

@[simp] theorem exec_addlb : exec (.addlb x) s =
    .next { s with regB := (aluAdd s.cfg s.regB x.toNat).1, overflow := (aluAdd s.cfg s.regB x.toNat).2 } := rfl

@[simp] theorem exec_set : exec (.set x) s = .next { s with regA := byteToWord s.cfg x } := rfl

@[simp] theorem exec_setb : exec (.setb x) s = .next { s with regB := byteToWord s.cfg x } := rfl

@[simp] theorem exec_write : exec .write s =
    .next { s with outQ := s.outQ ++ [s.regA], outputWasWritten := true } := rfl

/-- READ on either kind of queue: the head, or 0 when there is none (42_io_queue.md R86). -/
@[simp] theorem exec_read : exec .read s =
    .next { s with regA := s.inQ.head?.elim 0 (intToWord s.cfg), inQ := s.inQ.tail } := by
  obtain ⟨cfg, regA, regB, pc, mem, ir, opnd, ov, ha, fa, ow, inQ, outQ⟩ := s
  cases inQ <;> rfl

@[simp] theorem exec_halt : exec .halt s = .next { s with halted := true } := rfl

@[simp] theorem exec_jump : exec (.jump x) s = .next { s with pc := x.toNat } := rfl

@[simp] theorem exec_jumpz : exec (.jumpz x) s = .next { s with pc := if s.regA = 0 then x.toNat else s.pc } := by
  simp [exec, execJumpz, jumpWhen_eq]

@[simp] theorem exec_jumpnz : exec (.jumpnz x) s = .next { s with pc := if s.regA = 0 then s.pc else x.toNat } := by
  simp [exec, execJumpnz, jumpWhen_eq]

@[simp] theorem exec_jumpo : exec (.jumpo x) s = .next { s with pc := if s.overflow then x.toNat else s.pc } :=
  jumpWhen_eq s.overflow x s

@[simp] theorem exec_loadi : exec .loadi s =
    if s.regB < s.cfg.memsize then .next { s with regA := byteToWord s.cfg (s.mem.read s.regB) }
    else .next { s with faulted := true, halted := true } := by
  by_cases h : s.regB < s.cfg.memsize
  · simp [exec, execLoadi, memRead, h, State.setA]
  · simp [exec, execLoadi, h, raiseFault]

@[simp] theorem exec_savei : exec .savei s =
    if s.regB < s.cfg.memsize then .next { s with mem := s.mem.write s.regB (toByte s.regA) }
    else .next { s with faulted := true, halted := true } := by
  by_cases h : s.regB < s.cfg.memsize
  · simp [exec, execSavei, memWrite, h]
  · simp [exec, execSavei, h, raiseFault]

@[simp] theorem exec_load : exec (.load x) s =
    if x.toNat < s.cfg.memsize then .next { s with regA := byteToWord s.cfg (s.mem.read x.toNat) }
    else .fault (.addressOutOfRange x.toNat) := rfl

@[simp] theorem exec_save : exec (.save x) s =
    if x.toNat < s.cfg.memsize then .next { s with mem := s.mem.write x.toNat (toByte s.regA) }
    else .fault (.addressOutOfRange x.toNat) := rfl

end ExecEquations

@[simp] theorem mapNext_next (f : State → State) (s : State) : mapNext f (.next s) = .next (f s) := rfl
@[simp] theorem mapNext_fault (f : State → State) (e : Fault) : mapNext f (.fault e) = .fault e := rfl

/-! ### What an instruction leaves in the control components

The configuration and the prefetch buffer stay, and `pc` and the three flags are functions of the instruction and the old
state. Registers, `overflow`, memory and the queues are left open here. -/

theorem exec_eq_next {i : Instr} {s t : State} (h : exec i s = .next t) :
    t = { t with
      cfg := s.cfg
      ir := s.ir
      opnd := s.opnd
      pc := (takenTarget i s).getD s.pc
      halted := decide (i = .halt) || raisesFault i s || s.halted
      faulted := raisesFault i s || s.faulted
      outputWasWritten := decide (i = .write) || s.outputWasWritten } := by
  cases i with
  | loadi | savei =>
    simp only [exec_loadi, exec_savei] at h
    split at h <;> cases h <;> simp [takenTarget, raisesFault, *]
  | load x | save x =>
    simp only [exec_load, exec_save] at h
    split at h <;> cases h
    rfl
  | jumpz x | jumpnz x =>
    simp only [exec_jumpz, exec_jumpnz] at h
    cases h
    by_cases hA : s.regA = 0 <;> simp [takenTarget, raisesFault, hA]
  | jumpo x =>
    rw [exec_jumpo] at h
    cases h
    by_cases ho : s.overflow = true <;> simp [takenTarget, raisesFault, ho]
  | read =>
    rw [exec_read] at h
    cases h
    rfl
  | _ =>
    cases h
    rfl

/-- After an instruction `pc` is the target of a taken jump, and else what it was (10_state.md R18). -/
theorem exec_pc {i : Instr} {s t : State} (h : exec i s = .next t) : t.pc = (takenTarget i s).getD s.pc :=
  congrArg State.pc (exec_eq_next h)

/-- HALT and the architectural fault set `halted`; nothing clears it (10_state.md R23). -/
theorem exec_halted {i : Instr} {s t : State} (h : exec i s = .next t) :
    t.halted = (decide (i = .halt) || raisesFault i s || s.halted) :=
  congrArg State.halted (exec_eq_next h)

/-- Only the architectural fault sets `faulted`; nothing clears it (10_state.md R24). -/
theorem exec_faulted {i : Instr} {s t : State} (h : exec i s = .next t) :
    t.faulted = (raisesFault i s || s.faulted) :=
  congrArg State.faulted (exec_eq_next h)

/-- Only WRITE sets `outputWasWritten`; no instruction clears it (10_state.md R25). -/
theorem exec_outputWasWritten {i : Instr} {s t : State} (h : exec i s = .next t) :
    t.outputWasWritten = (decide (i = .write) || s.outputWasWritten) :=
  congrArg State.outputWasWritten (exec_eq_next h)

/-- Whether the fault is raised rests on B and the memory size alone, so clearing the output flag does not matter. -/
@[simp] theorem raisesFault_clearOutputWasWritten (i : Instr) (s : State) :
    raisesFault i s.clearOutputWasWritten = raisesFault i s := by
  cases i <;> rfl

/-! ### What a tick leaves in the flags -/

@[simp] theorem buffered_clearOutputWasWritten (s : State) : buffered s.clearOutputWasWritten = buffered s := rfl

/-- A tick outside the halted states that runs an instruction: the instruction after step 1, and then the refill
(40_execution_cycle.md R67 to R69). -/
theorem step_of_instr {s t : State} {i : Instr} (hrun : s.halted = false) (hi : buffered s = .instr i)
    (h : step s = .next t) : ∃ u, exec i s.clearOutputWasWritten = .next u ∧ t = refill u := by
  obtain ⟨hh, -⟩ | ⟨-, u, hu, -, rfl⟩ := step_cases h
  · simp [hrun] at hh
  · obtain ⟨j, hj, hexec⟩ | ⟨op, hop, -⟩ := executeBuffer_cases hu
    · obtain rfl : i = j := by simpa [hi] using hj
      exact ⟨u, hexec, rfl⟩
    · simp [hi] at hop

/-- A tick outside the halted states that meets an unassigned opcode only clears the output flag and refills
(30_encoding.md R61). -/
theorem step_of_unassigned {s t : State} {op : Byte} (hrun : s.halted = false) (hop : buffered s = .unassigned op)
    (h : step s = .next t) : t = refill s.clearOutputWasWritten := by
  obtain ⟨hh, -⟩ | ⟨-, u, hu, -, rfl⟩ := step_cases h
  · simp [hrun] at hh
  · obtain ⟨i, hi, -⟩ | ⟨-, -, rfl⟩ := executeBuffer_cases hu
    · simp [hop] at hi
    · rfl

/-- The three flags after a tick that runs an instruction. -/
theorem step_flags_of_instr {s t : State} {i : Instr} (hrun : s.halted = false) (hi : buffered s = .instr i)
    (h : step s = .next t) :
    t.halted = (decide (i = .halt) || raisesFault i s) ∧ t.faulted = (raisesFault i s || s.faulted) ∧
      t.outputWasWritten = decide (i = .write) := by
  obtain ⟨u, hu, rfl⟩ := step_of_instr hrun hi h
  simp [exec_halted hu, exec_faulted hu, exec_outputWasWritten hu, hrun]

/-- A tick in a halted state changes nothing (40_execution_cycle.md R66). -/
theorem step_of_halted {s : State} (h : s.halted = true) : step s = .next s := by
  simp [step, tick, h]

/-! ### What the host's operations leave -/

/-- A host operation other than a tick and a reset writes memory and the queues at most (10_state.md R33). -/
theorem hostStep_frame {mode : StartMode} {op : HostOp} {s t : State} {r : HostResult}
    (h : hostStep mode op s = .returns t r) (htick : op ≠ .tick) (hreset : op ≠ .reset) :
    t = { s with mem := t.mem, inQ := t.inQ, outQ := t.outQ } := by
  cases op with
  | load bytes offset =>
    simp only [hostStep, hostLoadOp] at h
    split at h
    · next u hu =>
      cases h
      obtain ⟨bs, -, -, -, rfl⟩ := hostLoad_eq_ok hu
      rfl
    · cases h
      rfl
    · cases h
  | reset => exact absurd rfl hreset
  | tick => exact absurd rfl htick
  | popOutput =>
    cases h
    unfold popOutput
    split <;> rfl
  | pushInput v | isHalted | isFaulted | outputWasWritten | inspect =>
    cases h
    rfl

/-- A tick the host sees return is a step. -/
theorem step_of_hostStep_tick {mode : StartMode} {s t : State} {r : HostResult}
    (h : hostStep mode .tick s = .returns t r) : step s = .next t := by
  simp only [hostStep, hostTick] at h
  split at h
  · next u hu =>
    cases h
    exact hu
  · cases h
  · cases h

@[simp] theorem hostReset_halted (mode : StartMode) (s : State) : (hostReset mode s).halted = false := by
  cases mode <;> simp [hostReset]

@[simp] theorem hostReset_faulted (mode : StartMode) (s : State) : (hostReset mode s).faulted = false := by
  cases mode <;> simp [hostReset]

@[simp] theorem hostReset_outputWasWritten (mode : StartMode) (s : State) :
    (hostReset mode s).outputWasWritten = false := by
  cases mode <;> simp [hostReset]

/-- What reset establishes, a step keeps and the other host operations keep holds in every reachable state
(10_state.md R33, R37). -/
theorem Reachable.of_reset_step_other {P : State → Prop} (reset : ∀ mode s, P (hostReset mode s))
    (step : ∀ s t, P s → step s = .next t → P t)
    (other : ∀ mode op s t r, P s → hostStep mode op s = .returns t r → op ≠ .tick → op ≠ .reset → P t)
    {cfg : Config} {mode : StartMode} {m0 : Nat → Byte} {s : State} (h : Reachable cfg mode m0 s) : P s := by
  induction h with
  | constructed => exact reset _ _
  | @afterOp s t op r _ hop ih =>
    by_cases htick : op = .tick
    · subst htick
      exact step s t ih (step_of_hostStep_tick hop)
    · by_cases hreset : op = .reset
      · subst hreset
        cases hop
        exact reset _ _
      · exact other mode op s t r ih hop htick hreset

/-! ### The control flags agree in every reachable state -/

/-- What the three flags of a reachable state satisfy (10_state.md R25, R28, R32). -/
structure FlagsAgree (s : State) : Prop where
  /-- a faulted machine is halted -/
  faulted_halted : s.faulted = true → s.halted = true
  /-- a halted machine's last tick wrote no output -/
  halted_silent : s.halted = true → s.outputWasWritten = false

/-- The instructions that halt the machine do not write output. -/
theorem not_write_of_halts {i : Instr} {s : State} (h : (decide (i = .halt) || raisesFault i s) = true) :
    i ≠ .write := by
  rintro rfl
  simp [raisesFault] at h

theorem step_keeps_flagsAgree {s t : State} (hs : FlagsAgree s) (h : step s = .next t) : FlagsAgree t := by
  cases hrun : s.halted with
  | true =>
    obtain rfl : s = t := by simpa [step_of_halted hrun] using h
    exact hs
  | false =>
    have hfault : s.faulted = false := by simpa [hrun] using hs.faulted_halted
    cases hb : buffered s with
    | instr i =>
      obtain ⟨hhalted, hfaulted, hout⟩ := step_flags_of_instr hrun hb h
      constructor
      · intro hf
        simp_all
      · intro ht
        simpa [hout] using not_write_of_halts (hhalted ▸ ht)
    | unassigned op =>
      obtain rfl := step_of_unassigned hrun hb h
      exact ⟨by simp [hfault], by simp⟩

theorem reachable_flagsAgree {cfg : Config} {mode : StartMode} {m0 : Nat → Byte} {s : State}
    (h : Reachable cfg mode m0 s) : FlagsAgree s := by
  refine Reachable.of_reset_step_other (fun _ _ => ⟨by simp, by simp⟩) (fun _ _ => step_keeps_flagsAgree) ?_ h
  intro mode op s t r hs hop htick hreset
  rw [hostStep_frame hop htick hreset]
  exact ⟨hs.faulted_halted, hs.halted_silent⟩

/-! ### The control state -/

@[simp] theorem control_eq_running_iff (s : State) :
    s.control = some .running ↔ s.halted = false ∧ s.faulted = false := by
  unfold State.control
  split <;> simp [*]

@[simp] theorem control_eq_halted_iff (s : State) :
    s.control = some .halted ↔ s.halted = true ∧ s.faulted = false := by
  unfold State.control
  split <;> simp [*]

@[simp] theorem control_eq_faulted_iff (s : State) :
    s.control = some .faulted ↔ s.halted = true ∧ s.faulted = true := by
  unfold State.control
  split <;> simp [*]

@[simp] theorem control_eq_none_iff (s : State) : s.control = none ↔ s.halted = false ∧ s.faulted = true := by
  unfold State.control
  split <;> simp [*]

/-- Settles O41: the flags of a tick, taken through the control state, and the flag invariant of reachable states. -/
theorem controlStateTransitions : Obligations.ControlStateTransitions := by
  unfold Obligations.ControlStateTransitions
  refine ⟨control_eq_running_iff, control_eq_halted_iff, control_eq_faulted_iff, ?reachable, ?instr, ?unassigned,
    ?stays, ?reset, ?other⟩
  case reachable =>
    intro cfg mode m0 s hs hnone
    obtain ⟨hhalted, hfaulted⟩ := (control_eq_none_iff s).mp hnone
    simp [(reachable_flagsAgree hs).faulted_halted hfaulted] at hhalted
  case instr =>
    intro s t i hctl hi h
    obtain ⟨hrun, hfault⟩ := (control_eq_running_iff s).mp hctl
    obtain ⟨hhalted, hfaulted, -⟩ := step_flags_of_instr hrun hi h
    by_cases hH : i = .halt
    · subst hH
      simp [hhalted, hfaulted, hfault, raisesFault]
    · cases hR : raisesFault i s <;> simp [hhalted, hfaulted, hfault, hH, hR]
  case unassigned =>
    intro s t op hctl hop h
    obtain ⟨hrun, hfault⟩ := (control_eq_running_iff s).mp hctl
    rw [step_of_unassigned hrun hop h]
    simp [hrun, hfault]
  case stays =>
    rintro s (hctl | hctl)
    · exact step_of_halted ((control_eq_halted_iff s).mp hctl).1
    · exact step_of_halted ((control_eq_faulted_iff s).mp hctl).1
  case reset => simp
  case other =>
    intro mode op s t r hop htick hreset
    rw [hostStep_frame hop htick hreset]
    rfl

/-! ### The program counter -/

theorem nextAddress_nextAddress (c : Config) (pc : Nat) :
    nextAddress c (nextAddress c pc) = (pc + 2) % c.memsize := Nat.mod_add_mod _ _ _

/-- Settles O36, from the frame of an instruction, of the refill and of a host operation. -/
theorem programCounterHasFourWriters : Obligations.ProgramCounterHasFourWriters := by
  unfold Obligations.ProgramCounterHasFourWriters
  refine ⟨fun i s t => exec_pc, fun _ _ => rfl, ?fetch, ?other, fun _ => rfl, ?wrap⟩
  case fetch =>
    intro s t h
    obtain ⟨-, rfl⟩ := fetch_eq_next h
    rw [refill_pc, nextAddress_nextAddress, nextAddress]
  case other =>
    intro mode op s t r hop htick hreset
    rw [hostStep_frame hop htick hreset]
  case wrap =>
    intro s t hlast h hop
    obtain ⟨-, rfl⟩ := fetch_eq_next h
    have hwrap : nextAddress s.cfg s.pc = 0 := by simp [nextAddress, hlast]
    rw [refill_ir] at hop
    simp [hop, hwrap]

/-! ### The output flag -/

/-- No instruction reads `outputWasWritten`, and only WRITE decides it (10_state.md R25). -/
theorem exec_with_outputWasWritten (i : Instr) (s : State) (f : Bool) :
    exec i { s with outputWasWritten := f } =
      mapNext (fun t => if i = .write then t else { t with outputWasWritten := f }) (exec i s) := by
  cases i with
  | loadi | savei => by_cases hb : s.regB < s.cfg.memsize <;> simp [hb]
  | load x | save x => by_cases hx : x.toNat < s.cfg.memsize <;> simp [hx]
  | _ => simp

/-- Settles O42: the output flag of a tick, its readers, and the flag invariant of reachable states. -/
theorem outputFlagMarksWriteTicks : Obligations.OutputFlagMarksWriteTicks := by
  unfold Obligations.OutputFlagMarksWriteTicks
  refine ⟨?tick, hostReset_outputWasWritten, ?other, exec_with_outputWasWritten,
    fun cfg mode m0 s hs => (reachable_flagsAgree hs).halted_silent⟩
  case tick =>
    intro s t hrun h
    cases hb : buffered s with
    | instr i =>
      obtain ⟨-, -, hout⟩ := step_flags_of_instr hrun hb h
      simp [hout]
    | unassigned op => simp [step_of_unassigned hrun hb h]
  case other =>
    intro mode op s t r hop htick hreset
    rw [hostStep_frame hop htick hreset]

/-! ### Register A: its writers and readers -/

/-- What is outside the writes-A column leaves A, and so does an indexed access that faults (10_state.md R15). -/
theorem exec_regA_of_not_writesA {i : Instr} {s t : State} (h : exec i s = .next t)
    (hw : writesA i = false ∨ raisesFault i s = true) : t.regA = s.regA := by
  cases i with
  | swap | add | sub | addl x | subl x | set x | read | load x => simp [writesA, raisesFault, Instr.mnemonic] at hw
  | loadi =>
    rw [exec_loadi] at h
    split at h
    · next hb => simp [writesA, raisesFault, Instr.mnemonic, hb] at hw
    · cases h
      rfl
  | savei | save x =>
    simp only [exec_savei, exec_save] at h
    split at h <;> cases h <;> rfl
  | jumpz x | jumpnz x | jumpo x =>
    simp only [exec_jumpz, exec_jumpnz, exec_jumpo] at h
    cases h
    rfl
  | nop | write | halt | jump x | addlb x | setb x =>
    cases h
    rfl

/-- What is outside the reads-A column does the same whatever A holds (10_state.md R15). -/
theorem exec_with_regA {i : Instr} (hr : readsA i = false) (s : State) (v : Nat) :
    exec i { s with regA := v } =
      mapNext (fun t => if writesA i && !raisesFault i s then t else { t with regA := v }) (exec i s) := by
  cases i with
  | swap | add | sub | addl x | subl x | write | savei | save x | jumpz x | jumpnz x =>
    simp [readsA, Instr.mnemonic] at hr
  | loadi => by_cases hb : s.regB < s.cfg.memsize <;> simp [hb, writesA, raisesFault, Instr.mnemonic]
  | load x => by_cases hx : x.toNat < s.cfg.memsize <;> simp [hx, writesA, raisesFault, Instr.mnemonic]
  | nop | read | halt | jump x | jumpo x | addlb x | set x | setb x => simp [writesA, raisesFault, Instr.mnemonic]

/-- A state in which every writer of A changes it and every reader of A sees whether it is 0 or 1. Its 257th cell holds
`pc`, where no jump of one operand byte leads. -/
def registerProbe : State where
  cfg := { memsize := 257 }
  regA := 0
  regB := 1
  pc := 256
  mem := [(1, 1)]
  ir := 0
  opnd := 0
  overflow := false
  halted := false
  faulted := false
  outputWasWritten := false
  inQ := [1]
  outQ := []

theorem registerProbe_inv : StateInv registerProbe :=
  ⟨by decide, by decide, by decide, by decide, by decide, by decide, by decide, by decide⟩

/-- Every instruction of the writes-A column gives A another value, with operand 1 where it has one. -/
theorem exec_changes_regA {i : Instr} (hw : writesA i = true) :
    ∃ t, exec (i.mnemonic.instr 1) registerProbe = .next t ∧ t.regA ≠ registerProbe.regA := by
  cases i with
  | swap | add | sub | addl x | subl x | set x | read | loadi | load x => exact ⟨_, rfl, by decide⟩
  | _ => simp [writesA, Instr.mnemonic] at hw

/-- For every instruction of the reads-A column it matters whether A is 0 or 1. -/
theorem exec_sees_regA {i : Instr} (hr : readsA i = true) :
    exec i { registerProbe with regA := 1 } ≠
      mapNext (fun t => if writesA i then t else { t with regA := 1 }) (exec i registerProbe) := by
  intro h
  cases i with
  | swap | add | sub | write | savei => exact absurd (Host.Outcome.next.inj h) (by decide)
  | addl x =>
    have hA : (1 + x.toNat) % 256 = (0 + x.toNat) % 256 := congrArg State.regA (Host.Outcome.next.inj h)
    omega
  | subl x =>
    have hA : ((1 - x.toNat : Int) % 256).toNat = ((0 - x.toNat : Int) % 256).toNat :=
      congrArg State.regA (Host.Outcome.next.inj h)
    omega
  | save x =>
    have hx : x.toNat < 257 := x.isLt.trans (by decide)
    simp only [exec_save, registerProbe, hx, if_true, mapNext_next] at h
    have hcell := congrArg (fun t => t.mem.read x.toNat) (Host.Outcome.next.inj h)
    simp [writesA, Instr.mnemonic, toByte] at hcell
  | jumpz x =>
    have hpc : 256 = x.toNat := congrArg State.pc (Host.Outcome.next.inj h)
    omega
  | jumpnz x =>
    have hpc : x.toNat = 256 := congrArg State.pc (Host.Outcome.next.inj h)
    omega
  | _ => simp [readsA, Instr.mnemonic] at hr

/-- Settles O37: the frame and the independence of A hold in every state, and one probing state shows the columns of
R15 to be exact. -/
theorem registerAHasTheSpecsWritersAndReaders : Obligations.RegisterAHasTheSpecsWritersAndReaders := by
  unfold Obligations.RegisterAHasTheSpecsWritersAndReaders
  refine ⟨fun i s t => exec_regA_of_not_writesA, ?swap, ?read, fun i s v hr => exec_with_regA hr s v, ?writers, ?readers,
    fun _ _ => rfl⟩
  case swap =>
    intro s t h
    cases h
    rfl
  case read =>
    intro s t h hq
    rw [exec_read] at h
    cases h
    simp [hq]
  case writers =>
    intro i hw
    obtain ⟨t, ht, hA⟩ := exec_changes_regA hw
    exact ⟨1, registerProbe, t, registerProbe_inv, ht, hA⟩
  case readers => exact fun i hr => ⟨registerProbe, 1, registerProbe_inv, exec_sees_regA hr⟩

end Sys2Proof.Machine

/-! ## The encoding family (30_encoding.md)

The two lookups of the InstructionTable are characterised once, by key; the decoder's facts and the ranges of the
unassigned opcodes follow from that. -/

namespace Sys2Proof.Machine

/-! ### Searching a table by a key -/

/-- In a list without two entries of one key, the search for a key finds exactly the entry that has it. -/
theorem find?_key_eq_some_iff {α β : Type} [BEq β] [LawfulBEq β] {key : α → β} {l : List α} (hl : (l.map key).Nodup)
    {k : β} {r : α} : l.find? (fun x => key x == k) = some r ↔ r ∈ l ∧ key r = k := by
  constructor
  · intro h
    exact ⟨List.mem_of_find?_eq_some h, by simpa using List.find?_some h⟩
  · rintro ⟨hr, rfl⟩
    have hfound : (l.find? fun x => key x == key r).isSome := List.find?_isSome.mpr ⟨r, hr, by simp⟩
    obtain ⟨r', h⟩ := Option.isSome_iff_exists.mp hfound
    have hkey : key r' = key r := by simpa using List.find?_some h
    rw [h, List.inj_on_of_nodup_map hl (List.mem_of_find?_eq_some h) hr hkey]

/-! ### The InstructionTable -/

/-- Settles O3: the table is a literal of 20 rows. -/
theorem tableHasTheSpecsTwentyRows : Obligations.TableHasTheSpecsTwentyRows := by
  unfold Obligations.TableHasTheSpecsTwentyRows
  constructor
  · rfl
  · decide

/-- No opcode stands in two rows. -/
theorem instructionTable_opcodes_nodup : (instructionTable.map fun r => r.opcode).Nodup := by decide

/-- No mnemonic stands in two rows. -/
theorem instructionTable_texts_nodup : (instructionTable.map fun r => r.mnemonic.text.toList).Nodup := by decide

theorem lookupOpcode_eq_some_iff {op : Byte} {r : TableRow} :
    lookupOpcode op = some r ↔ r ∈ instructionTable ∧ r.opcode = op :=
  find?_key_eq_some_iff instructionTable_opcodes_nodup

theorem lookupOpcode_eq_none_iff {op : Byte} : lookupOpcode op = none ↔ ∀ r ∈ instructionTable, r.opcode ≠ op := by
  simp [lookupOpcode]

theorem lookupMnemonic_eq_some_iff {kw : List Char} {r : TableRow} :
    lookupMnemonic kw = some r ↔ r ∈ instructionTable ∧ r.mnemonic.text.toList = upperText kw :=
  find?_key_eq_some_iff instructionTable_texts_nodup

/-- The table spells its mnemonics in capitals (30_encoding.md R59). -/
@[simp] theorem upperText_mnemonic (m : Mnemonic) : upperText m.text.toList = m.text.toList := by
  have hascii : m.text.toList.all isAscii = true := by cases m <;> decide
  rw [upperText_ascii (List.all_eq_true.mp hascii)]
  cases m <;> decide

/-! ### The decoder -/

theorem decode_of_lookup_some {op : Byte} {r : TableRow} (h : lookupOpcode op = some r) (opnd : Byte) :
    decode op opnd = .instr (r.mnemonic.instr opnd) := by
  simp [decode, h]

theorem decode_of_lookup_none {op : Byte} (h : lookupOpcode op = none) (opnd : Byte) :
    decode op opnd = .unassigned op := by
  simp [decode, h]

theorem decode_eq_unassigned_iff {op opnd : Byte} : decode op opnd = .unassigned op ↔ lookupOpcode op = none := by
  constructor
  · intro h
    cases hop : lookupOpcode op with
    | none => rfl
    | some r => simp [decode_of_lookup_some hop] at h
  · exact fun h => decode_of_lookup_none h opnd

/-- Settles O4: both lookups find a row by its key, which no other row has. -/
theorem decodeFollowsTheTable : Obligations.DecodeFollowsTheTable := by
  unfold Obligations.DecodeFollowsTheTable
  refine ⟨?assigned, ?unassigned, ?mnemonic⟩
  case assigned =>
    intro ir opnd r hr hop
    exact decode_of_lookup_some (lookupOpcode_eq_some_iff.mpr ⟨hr, hop⟩) opnd
  case unassigned =>
    intro ir opnd h
    exact decode_of_lookup_none (lookupOpcode_eq_none_iff.mpr h) opnd
  case mnemonic =>
    intro r hr
    exact lookupMnemonic_eq_some_iff.mpr ⟨hr, (upperText_mnemonic r.mnemonic).symm⟩

/-- With two bytes at hand the decoder of a byte stream never runs out, and bit 7 of the first says whether it takes
the second (30_encoding.md R54). -/
theorem decodeBytes_cons_cons (op x : Byte) (rest : List Byte) :
    decodeBytes (op :: x :: rest) =
      .ok (decode op (if hasOperand op then x else 0), if hasOperand op then rest else x :: rest) := by
  cases h : hasOperand op <;> simp [decodeBytes, h]

/-! ### The unassigned opcodes -/

/-- The gaps of the table (30_encoding.md R61). -/
theorem lookupOpcode_eq_none_iff_ranges (op : Byte) : lookupOpcode op = none ↔
    (0x09 ≤ op.toNat ∧ op.toNat ≤ 0x7F) ∨ (0x82 ≤ op.toNat ∧ op.toNat ≤ 0x91) ∨ (0x96 ≤ op.toNat ∧ op.toNat ≤ 0x9F) ∨
      (0xA3 ≤ op.toNat ∧ op.toNat ≤ 0xA5) ∨ 0xA8 ≤ op.toNat := by
  have hop : op.toNat < 256 := op.isLt
  simp only [lookupOpcode_eq_none_iff, instructionTable, formatNRows, formatIRows, List.cons_append, List.nil_append,
    List.forall_mem_cons, List.not_mem_nil, false_implies, implies_true, and_true, ne_eq]
  bv_omega

/-- Step 2 of a tick does nothing for an unassigned opcode (30_encoding.md R61). -/
theorem executeBuffer_of_unassigned {s : State} {op : Byte} (h : buffered s = .unassigned op) :
    executeBuffer s = .next s := by
  unfold buffered at h
  simp [executeBuffer, h, execUnassigned]

/-- A tick that meets an unassigned opcode goes on if there is a byte to fetch at `pc`. -/
theorem step_eq_refill_of_unassigned {s : State} {op : Byte} (hrun : s.halted = false)
    (hop : buffered s = .unassigned op) (hpc : s.pc < s.cfg.memsize) :
    step s = .next (refill s.clearOutputWasWritten) := by
  have hexec : executeBuffer s.clearOutputWasWritten = .next s.clearOutputWasWritten :=
    executeBuffer_of_unassigned (by simpa using hop)
  simp [step, tick, hrun, hexec, fetch, hpc]

/-- The refill writes `ir`, `opnd` and `pc` only (40_execution_cycle.md R70). -/
theorem refill_frame (s : State) :
    refill s = { s with pc := (refill s).pc, ir := (refill s).ir, opnd := (refill s).opnd } := by
  unfold refill
  dsimp only
  split <;> rfl

/-- Settles O5: the gaps of the table, and a tick that is its refill alone. -/
theorem unassignedOpcodesAreNoOps : Obligations.UnassignedOpcodesAreNoOps := by
  unfold Obligations.UnassignedOpcodesAreNoOps
  refine ⟨?ranges, ?formatN, ?formatI, ?bytes, ?noOp⟩
  case ranges => exact fun op opnd => decode_eq_unassigned_iff.trans (lookupOpcode_eq_none_iff_ranges op)
  case formatN => rfl
  case formatI => rfl
  case bytes =>
    intro op x rest hop
    rw [decodeBytes_cons_cons, decode_of_lookup_none hop]
  case noOp =>
    intro op s hrun hop hpc
    refine ⟨executeBuffer_of_unassigned hop, refill s.clearOutputWasWritten,
      step_eq_refill_of_unassigned hrun hop hpc, refill_frame _, ?_⟩
    rw [refill_pc, nextAddress_nextAddress]
    rfl

end Sys2Proof.Machine

/-! ## The execution cycle family (40_execution_cycle.md)

The fetch on either side of the end of memory, the refill on either value of bit 7 of the opcode at `pc`, and a tick
outside the halted states, each as one equation. -/

namespace Sys2Proof.Machine

/-! ### The fetch -/

theorem fetch_in_range {s : State} (h : s.pc < s.cfg.memsize) : fetch s = .next (refill s) := if_pos h

theorem fetch_out_of_range {s : State} (h : s.cfg.memsize ≤ s.pc) : fetch s = .fault (.fetchOutOfRange s.pc) :=
  if_neg (not_lt.mpr h)

/-- A format I opcode at `pc`: the refill reads two bytes (40_execution_cycle.md R70). -/
theorem refill_of_hasOperand {s : State} (h : hasOperand (s.mem.read s.pc) = true) :
    refill s = { s with
      ir := s.mem.read s.pc
      opnd := s.mem.read (nextAddress s.cfg s.pc)
      pc := nextAddress s.cfg (nextAddress s.cfg s.pc) } := if_pos h

/-- A format N opcode at `pc`: the refill reads one byte, and the operand is 0 (40_execution_cycle.md R70). -/
theorem refill_of_not_hasOperand {s : State} (h : hasOperand (s.mem.read s.pc) = false) :
    refill s = { s with ir := s.mem.read s.pc, opnd := 0x00, pc := nextAddress s.cfg s.pc } :=
  if_neg (Bool.not_eq_true _ ▸ h)

/-! ### The procedure's two uses -/

/-- Outside the halted states a tick is its three steps, the fetch last (40_execution_cycle.md R65, R67 to R69). -/
theorem step_of_running {s : State} (hrun : s.halted = false) :
    step s = andThen (executeBuffer s.clearOutputWasWritten) fetch := by
  simp [step, tick, hrun]

/-- Address 0 is always in memory (70_reset_and_hazards.md R128). -/
theorem clearForReset_pc_lt (s : State) : (clearForReset s).pc < (clearForReset s).cfg.memsize := s.cfg.memsize_pos

/-- The reset prefetch is the fetch from the state that a bubble reset leaves (70_reset_and_hazards.md R128). -/
theorem fetch_hostReset_bubble (s : State) : fetch (hostReset .bubble s) = .next (hostReset .resetPrefetch s) :=
  fetch_in_range (clearForReset_pc_lt s)

/-- Settles O26: a fetch in memory is its refill, by bit 7 of the byte at `pc`. -/
theorem fetchFillsTheBuffer : Obligations.FetchFillsTheBuffer := by
  unfold Obligations.FetchFillsTheBuffer
  refine ⟨?formatI, ?formatN, fun s => fetch_out_of_range, fun s => step_of_running, fetch_hostReset_bubble⟩
  case formatI =>
    intro s hpc hop
    rw [fetch_in_range hpc, refill_of_hasOperand hop]
    rfl
  case formatN =>
    intro s hpc hop
    rw [fetch_in_range hpc, refill_of_not_hasOperand hop]
    rfl

end Sys2Proof.Machine

/-! ## The ALU and register family (41_alu_register.md)

The ALU's results are settled once, on values and apart from any state: its two equations, its corner cases, and the
spec's numbers for one width. An instruction's next state is then the ALU's result written to A and the flag. -/

namespace Sys2Proof.Machine

/-! ### The ALU's results -/

section AluResults

variable {c : Config} {x y : Nat}

theorem Config.maxint_add_one (c : Config) : c.maxint + 1 = c.modulus := Nat.sub_add_cancel (Config.modulus_pos c)

/-- The value and the flag of a sum, as 41_alu_register.md R74 writes them. -/
theorem aluAdd_eq (c : Config) (x y : Nat) : aluAdd c x y = ((x + y) % c.modulus, decide (x + y > c.maxint)) := rfl

/-- A difference is negative exactly when it borrows (41_alu_register.md R74, R79). -/
theorem differenceOverflows_sub (x y : Nat) : differenceOverflows ((x : Int) - (y : Int)) = decide (x < y) := by
  unfold differenceOverflows
  rw [decide_eq_decide]
  omega

/-- The value and the flag of a difference, as 41_alu_register.md R79 and R81 write them. -/
theorem aluSub_eq (c : Config) (x y : Nat) :
    aluSub c x y = ((((x : Int) - (y : Int)) % (c.modulus : Int)).toNat, decide (x < y)) := by
  rw [aluSub, differenceOverflows_sub]
  rfl

/-- A sum that is a word is the result, without overflow. -/
theorem aluAdd_of_sum_lt (h : x + y < c.modulus) : aluAdd c x y = (x + y, false) := by
  have hmax := Config.maxint_add_one c
  have hflag : ¬x + y > c.maxint := by omega
  rw [aluAdd_eq, Nat.mod_eq_of_lt h, decide_eq_false hflag]

theorem aluAdd_of_sum_eq_maxint (h : x + y = c.maxint) : aluAdd c x y = (c.maxint, false) := by
  have hmax := Config.maxint_add_one c
  rw [aluAdd_of_sum_lt (by omega), h]

/-- The first sum that wraps. -/
theorem aluAdd_of_sum_eq_modulus (h : x + y = c.modulus) : aluAdd c x y = (0, true) := by
  have hmax := Config.maxint_add_one c
  have hflag : x + y > c.maxint := by omega
  rw [aluAdd_eq, h, Nat.mod_self, ← h, decide_eq_true hflag]

/-- Adding 0 to a word only clears the flag (41_alu_register.md R80). -/
theorem aluAdd_zero (h : x < c.modulus) : aluAdd c x 0 = (x, false) := aluAdd_of_sum_lt h

/-- Without a borrow the difference of words is the result. -/
theorem aluSub_of_le (hle : y ≤ x) (hx : x < c.modulus) : aluSub c x y = (x - y, false) := by
  have hval : ((x : Int) - (y : Int)) % (c.modulus : Int) = ((x - y : Nat) : Int) := by
    rw [← Int.ofNat_sub hle]
    exact_mod_cast Nat.mod_eq_of_lt (by omega : x - y < c.modulus)
  rw [aluSub_eq, hval, Int.toNat_natCast, decide_eq_false (not_lt.mpr hle)]

/-- A borrow from one modulus makes up a difference that is not below `-modulus`. -/
theorem aluSub_of_lt (hlt : x < y) (hy : y ≤ x + c.modulus) : aluSub c x y = (x + c.modulus - y, true) := by
  have hval : ((x : Int) - (y : Int)) % (c.modulus : Int) = ((x + c.modulus - y : Nat) : Int) := by
    rw [← Int.add_emod_right, Int.emod_eq_of_lt (by omega) (by omega)]
    omega
  rw [aluSub_eq, hval, Int.toNat_natCast, decide_eq_true hlt]

/-- Equal operands leave 0, even when they are no words. -/
theorem aluSub_self (c : Config) (x : Nat) : aluSub c x x = (0, false) := by
  rw [aluSub_eq, Int.sub_self, Int.zero_emod, decide_eq_false (lt_irrefl x)]
  rfl

/-- Subtracting 0 from a word only clears the flag (41_alu_register.md R80, R81). -/
theorem aluSub_zero (h : x < c.modulus) : aluSub c x 0 = (x, false) := aluSub_of_le (Nat.zero_le x) h

/-- Counting down from 0 gives the greatest word (41_alu_register.md R79, R81). -/
theorem aluSub_zero_one (c : Config) : aluSub c 0 1 = (c.maxint, true) := by
  rw [aluSub_of_lt Nat.zero_lt_one (by have := Config.modulus_pos c; omega), Nat.zero_add]
  rfl

end AluResults

/-! ### The modulus of one width (00_scope.md R6, R7) -/

section Widths

variable {c : Config}

theorem Config.modulus_w4 (h : c.width = .w4) : c.modulus = 16 := by simp [Config.modulus, h, Width.bits]

theorem Config.modulus_w8 (h : c.width = .w8) : c.modulus = 256 := by simp [Config.modulus, h, Width.bits]

theorem Config.maxint_w16 (h : c.width = .w16) : c.maxint = 0xFFFF := by
  simp [Config.maxint, Config.modulus, h, Width.bits]

end Widths

/-! ### NOP -/

/-- Step 2 of a tick is the buffered instruction's meaning (40_execution_cycle.md R68). -/
theorem executeBuffer_of_instr {s : State} {i : Instr} (h : buffered s = .instr i) : executeBuffer s = exec i s := by
  unfold buffered at h
  simp [executeBuffer, h]

/-- A tick that executes NOP is its refill alone (41_alu_register.md R76). -/
theorem step_of_nop {s : State} (hrun : s.halted = false) (hnop : buffered s = .instr .nop)
    (hpc : s.pc < s.cfg.memsize) : step s = .next (refill s.clearOutputWasWritten) := by
  have hbuf : buffered s.clearOutputWasWritten = .instr .nop := by simpa using hnop
  rw [step_of_running hrun, executeBuffer_of_instr hbuf, exec_nop]
  exact fetch_in_range hpc

/-- Settles O8: a tick that executes NOP is its refill, which writes the prefetch buffer and `pc` only. -/
theorem nopHasNoEffect : Obligations.NopHasNoEffect := by
  unfold Obligations.NopHasNoEffect
  refine ⟨rfl, exec_nop, fun op s => rfl, ?tick⟩
  intro s hrun hnop hpc
  exact ⟨refill s.clearOutputWasWritten, step_of_nop hrun hnop hpc, refill_frame _⟩

/-! ### SWAP -/

/-- Settles O9, from the exchange of A and B in one record update. -/
theorem swapExchangesRegisters : Obligations.SwapExchangesRegisters := by
  unfold Obligations.SwapExchangesRegisters
  refine ⟨rfl, exec_swap, ?equal, ?twice⟩
  case equal =>
    intro s h
    cases s
    cases h
    rfl
  case twice =>
    intro s
    rw [exec_swap]
    exact exec_swap _

/-! ### ADD and SUB -/

/-- Settles O10, from the ALU's sum, its two boundary sums and 200 + 100 modulo 256. -/
theorem addWrapsAndWritesOverflow : Obligations.AddWrapsAndWritesOverflow := by
  unfold Obligations.AddWrapsAndWritesOverflow
  refine ⟨rfl, exec_add, ?maxint, ?modulus, ?numbers⟩
  case maxint =>
    intro s h
    rw [exec_add, aluAdd_of_sum_eq_maxint h]
  case modulus =>
    intro s h
    rw [exec_add, aluAdd_of_sum_eq_modulus h]
  case numbers =>
    intro s hw hA hB
    have hsum : aluAdd s.cfg s.regA s.regB = (44, true) := by
      simp [aluAdd_eq, Config.maxint, Config.modulus_w8 hw, hA, hB]
    rw [exec_add, hsum]

/-- Settles O11, from the ALU's difference, its corner cases and 5 - 7 modulo 256. -/
theorem subWrapsAndWritesOverflow : Obligations.SubWrapsAndWritesOverflow := by
  unfold Obligations.SubWrapsAndWritesOverflow
  refine ⟨rfl, ?whole, ?equal, ?zeroOne, ?numbers⟩
  case whole =>
    intro s
    rw [exec_sub, aluSub_eq]
  case equal =>
    intro s h
    rw [exec_sub, h, aluSub_self]
  case zeroOne =>
    intro s hA hB
    rw [exec_sub, hA, hB, aluSub_zero_one]
  case numbers =>
    intro s hw hA hB
    have hdiff : aluSub s.cfg s.regA s.regB = (254, true) := by
      simp [aluSub_eq, Config.modulus_w8 hw, hA, hB]
    rw [exec_sub, hdiff]

/-! ### ADDL and SUBL -/

/-- The literal 0 makes ADDL do no more than clear the flag (41_alu_register.md R80). -/
theorem exec_addl_zero {s : State} (h : s.regA < s.cfg.modulus) :
    exec (.addl 0) s = .next { s with overflow := false } := by
  have hsum : aluAdd s.cfg s.regA (0 : Byte).toNat = (s.regA, false) := aluAdd_zero h
  rw [exec_addl, hsum]

theorem exec_subl_zero {s : State} (h : s.regA < s.cfg.modulus) :
    exec (.subl 0) s = .next { s with overflow := false } := by
  have hdiff : aluSub s.cfg s.regA (0 : Byte).toNat = (s.regA, false) := aluSub_zero h
  rw [exec_subl, hdiff]

theorem exec_addlb_zero {s : State} (h : s.regB < s.cfg.modulus) :
    exec (.addlb 0) s = .next { s with overflow := false } := by
  have hsum : aluAdd s.cfg s.regB (0 : Byte).toNat = (s.regB, false) := aluAdd_zero h
  rw [exec_addlb, hsum]

/-- Settles O12, from the ALU's sum with the literal as it is; at `W = 4` the literal 0x20 is twice the modulus. -/
theorem addlWrapsAndWritesOverflow : Obligations.AddlWrapsAndWritesOverflow := by
  unfold Obligations.AddlWrapsAndWritesOverflow
  refine ⟨fun imm => rfl, fun imm s => exec_addl s imm, fun s h => ⟨exec_addl_zero h, exec_subl_zero h⟩,
    fun s => exec_addlb_zero, ?wideLiteral, ?wrap⟩
  case wideLiteral =>
    intro s hw hA
    have hsum : aluAdd s.cfg s.regA (0x20 : Byte).toNat = (1, true) := by
      simp [aluAdd_eq, Config.maxint, Config.modulus_w4 hw, hA]
    rw [exec_addl, hsum]
  case wrap =>
    intro s hw hA
    have hsum : s.regA + (0x01 : Byte).toNat = s.cfg.modulus := by simp [Config.modulus_w8 hw, hA]
    rw [exec_addl, aluAdd_of_sum_eq_modulus hsum]

/-- Settles O13, from the ALU's difference with the literal as it is; at `W = 4` the literal 0x20 borrows twice the
modulus. -/
theorem sublWrapsAndWritesOverflow : Obligations.SublWrapsAndWritesOverflow := by
  unfold Obligations.SublWrapsAndWritesOverflow
  refine ⟨fun imm => rfl, ?whole, fun s => exec_subl_zero, ?countDown, ?wideLiteral, ?equal⟩
  case whole =>
    intro imm s
    rw [exec_subl, aluSub_eq]
  case countDown =>
    intro s hw hA
    have hdiff : aluSub s.cfg s.regA (0x01 : Byte).toNat = (0xFFFF, true) := by
      rw [hA, ← Config.maxint_w16 hw]
      exact aluSub_zero_one s.cfg
    rw [exec_subl, hdiff]
  case wideLiteral =>
    intro s hw hA
    have hdiff : aluSub s.cfg s.regA (0x20 : Byte).toNat = (3, true) := by
      simp [aluSub_eq, Config.modulus_w4 hw, hA]
    rw [exec_subl, hdiff]
  case equal =>
    intro s _ hA
    have hdiff : aluSub s.cfg s.regA (0x10 : Byte).toNat = (0, false) := by
      rw [hA]
      exact aluSub_self s.cfg 0x10
    rw [exec_subl, hdiff]

end Sys2Proof.Machine

/-! ## The queue family (42_io_queue.md)

The tick that executes WRITE is followed to its end, and READ is stated apart for the two forms of the input queue. -/

namespace Sys2Proof.Machine

/-! ### WRITE -/

/-- The output queue, A and the flag after a tick that executes WRITE: step 1 and the fetch touch none of what step 2
leaves there (42_io_queue.md R85). -/
theorem step_of_write {s t : State} (hrun : s.halted = false) (hwrite : buffered s = .instr .write)
    (h : step s = .next t) : t.outQ = s.outQ ++ [s.regA] ∧ t.regA = s.regA ∧ t.outputWasWritten = true := by
  obtain ⟨u, hu, rfl⟩ := step_of_instr hrun hwrite h
  rw [exec_write] at hu
  cases hu
  exact ⟨refill_outQ _, refill_regA _, refill_outputWasWritten _⟩

/-- The flag a running tick leaves tells whether it executed WRITE (10_state.md R25, 42_io_queue.md R85). -/
theorem step_outputWasWritten_iff {s t : State} (hrun : s.halted = false) (h : step s = .next t) :
    t.outputWasWritten = true ↔ buffered s = .instr .write := by
  obtain ⟨hflag, -⟩ := outputFlagMarksWriteTicks
  exact hflag s t hrun h

/-- Settles O16, from the record update of WRITE, followed through a tick and through a second WRITE. -/
theorem writeAppendsA : Obligations.WriteAppendsA := by
  unfold Obligations.WriteAppendsA
  refine ⟨rfl, exec_write, fun s t => step_of_write, ?otherTick, ?twice⟩
  case otherTick =>
    intro s t hrun hother h
    exact Bool.eq_false_iff.mpr (mt (step_outputWasWritten_iff hrun h).mp hother)
  case twice =>
    intro s
    rw [exec_write, andThen_next, exec_write, List.append_assoc]
    rfl

/-! ### READ -/

theorem exec_read_of_cons {s : State} {v : Int} {rest : List Int} (h : s.inQ = v :: rest) :
    exec .read s = .next { s with regA := intToWord s.cfg v, inQ := rest } := by
  rw [exec_read, h]
  rfl

/-- An empty queue stays as it is, so that only A changes (42_io_queue.md R86). -/
theorem exec_read_of_nil {s : State} (h : s.inQ = []) : exec .read s = .next { s with regA := 0 } := by
  have hstays : s.inQ.tail = s.inQ := by rw [h, List.tail_nil]
  rw [exec_read, hstays, h]
  rfl

/-- Settles O17, from READ on either form of the queue; at `W = 8` the residues are those modulo 256. -/
theorem readTakesHeadOrZero : Obligations.ReadTakesHeadOrZero := by
  unfold Obligations.ReadTakesHeadOrZero
  refine ⟨rfl, fun s v rest => exec_read_of_cons, fun s => exec_read_of_nil, ?tooGreat, ?negative⟩
  case tooGreat =>
    intro s rest hw hq
    have hword : intToWord s.cfg 300 = 44 := by simp [intToWord, Config.modulus_w8 hw]
    rw [exec_read_of_cons hq, hword]
  case negative =>
    intro s rest hw hq
    have hword : intToWord s.cfg (-1) = 255 := by simp [intToWord, Config.modulus_w8 hw]
    rw [exec_read_of_cons hq, hword]

end Sys2Proof.Machine

/-! ## The exceptions family (60_exceptions.md)

The architectural fault from both sides: what LOADI and SAVEI leave when B names no cell, and what must have run when
`faulted` changes. -/

namespace Sys2Proof.Machine

/-- LOADI beyond memory writes no A (60_exceptions.md R113). -/
theorem exec_loadi_beyond_memory {s : State} (h : s.cfg.memsize ≤ s.regB) :
    exec .loadi s = .next { s with faulted := true, halted := true } := by
  rw [exec_loadi, if_neg (not_lt.mpr h)]

/-- SAVEI beyond memory writes no cell (60_exceptions.md R113). -/
theorem exec_savei_beyond_memory {s : State} (h : s.cfg.memsize ≤ s.regB) :
    exec .savei s = .next { s with faulted := true, halted := true } := by
  rw [exec_savei, if_neg (not_lt.mpr h)]

/-- The only source of the architectural fault is an indexed access beyond memory (60_exceptions.md R113). -/
theorem raisesFault_iff (i : Instr) (s : State) :
    raisesFault i s = true ↔ (i = .loadi ∨ i = .savei) ∧ s.cfg.memsize ≤ s.regB := by
  cases i with
  | loadi | savei => simp [raisesFault, indexedInRange]
  | nop | swap | add | sub | write | read | halt | load x | save x | jump x | jumpz x | jumpnz x | jumpo x | addl x
  | subl x | addlb x | set x | setb x => simp [raisesFault]

/-- An instruction that raises no fault leaves `faulted` as it was (10_state.md R24). -/
theorem raisesFault_of_faulted_ne {i : Instr} {s t : State} (h : exec i s = .next t) (hne : t.faulted ≠ s.faulted) :
    raisesFault i s = true := by
  by_contra hnone
  have hsame : t.faulted = s.faulted := by
    rw [exec_faulted h, Bool.eq_false_iff.mpr hnone, Bool.false_or]
  exact hne hsame

/-- Settles O22, from the two accesses beyond memory and the flag `exec` leaves. -/
theorem indexedAccessBeyondMemoryFaults : Obligations.IndexedAccessBeyondMemoryFaults := by
  unfold Obligations.IndexedAccessBeyondMemoryFaults
  refine ⟨?faults, ?onlyThese⟩
  case faults => exact fun s hB => ⟨exec_loadi_beyond_memory hB, exec_savei_beyond_memory hB⟩
  case onlyThese =>
    intro i s t h hne
    exact (raisesFault_iff i s).mp (raisesFault_of_faulted_ne h hne)

end Sys2Proof.Machine

/-! ## Round trips through the encoding (30_encoding.md)

A row of the InstructionTable says what its instruction encodes to, and every instruction has a row; both directions of
the round trip follow from that. -/

namespace Sys2Proof.Machine

/-! ### The encoding of a row -/

/-- The encoding a table row stands for: its opcode, and the operand byte when bit 7 is set (30_encoding.md R54). -/
theorem encode_row {r : TableRow} (hr : r ∈ instructionTable) (x : Byte) :
    encode (r.mnemonic.instr x) = if hasOperand r.opcode then [r.opcode, x] else [r.opcode] := by
  simp only [instructionTable, formatNRows, formatIRows, List.cons_append, List.nil_append] at hr
  fin_cases hr <;> rfl

/-- Bit 7 of its opcode tells a row's format (30_encoding.md R54 to R56). -/
theorem mem_instructionTable_of_formatI {row : TableRow} (h : row ∈ formatIRows) :
    row ∈ instructionTable ∧ hasOperand row.opcode = true :=
  ⟨List.mem_append_right _ h, (by decide : ∀ r ∈ formatIRows, hasOperand r.opcode = true) row h⟩

theorem mem_instructionTable_of_formatN {row : TableRow} (h : row ∈ formatNRows) :
    row ∈ instructionTable ∧ hasOperand row.opcode = false :=
  ⟨List.mem_append_left _ h, (by decide : ∀ r ∈ formatNRows, hasOperand r.opcode = false) row h⟩

/-- A format N row has one instruction, whatever the operand byte (30_encoding.md R55). -/
theorem instr_of_not_hasOperand {r : TableRow} (hr : r ∈ instructionTable) (h : hasOperand r.opcode = false)
    (x y : Byte) : r.mnemonic.instr x = r.mnemonic.instr y := by
  have hN : r ∈ formatNRows := by
    refine (List.mem_append.mp hr).resolve_right fun hI => ?_
    obtain ⟨-, hop⟩ := mem_instructionTable_of_formatI hI
    simp [hop] at h
  unfold formatNRows at hN
  fin_cases hN <;> rfl

theorem exists_row (m : Mnemonic) : ∃ r ∈ instructionTable, r.mnemonic = m := by
  cases m <;> decide

/-- An instruction is its mnemonic with its operand byte. -/
theorem instr_mnemonic (i : Instr) : i.mnemonic.instr ((operandByte? i).getD 0) = i := by
  cases i <;> rfl

/-- Every instruction is that of a table row and an operand byte (30_encoding.md R59). -/
theorem exists_row_instr (i : Instr) : ∃ r ∈ instructionTable, ∃ x, i = r.mnemonic.instr x := by
  obtain ⟨r, hr, hm⟩ := exists_row i.mnemonic
  exact ⟨r, hr, (operandByte? i).getD 0, by rw [hm, instr_mnemonic]⟩

theorem decode_row {r : TableRow} (hr : r ∈ instructionTable) (x : Byte) :
    decode r.opcode x = .instr (r.mnemonic.instr x) :=
  decode_of_lookup_some (lookupOpcode_eq_some_iff.mpr ⟨hr, rfl⟩) x

/-- An instruction comes out of the decoder only through the row of its opcode (30_encoding.md R60). -/
theorem decode_eq_instr {op x : Byte} {i : Instr} (h : decode op x = .instr i) :
    ∃ r ∈ instructionTable, r.opcode = op ∧ i = r.mnemonic.instr x := by
  cases hop : lookupOpcode op with
  | none => simp [decode_of_lookup_none hop] at h
  | some r =>
    obtain ⟨hr, hkey⟩ := lookupOpcode_eq_some_iff.mp hop
    rw [decode_of_lookup_some hop] at h
    exact ⟨r, hr, hkey, (Decoded.instr.inj h).symm⟩

/-! ### Decoding after encoding -/

theorem decodeBytes_of_hasOperand {op : Byte} (h : hasOperand op = true) (x : Byte) (rest : List Byte) :
    decodeBytes (op :: x :: rest) = .ok (decode op x, rest) := by
  simp [decodeBytes, h]

theorem decodeBytes_of_not_hasOperand {op : Byte} (h : hasOperand op = false) (rest : List Byte) :
    decodeBytes (op :: rest) = .ok (decode op 0, rest) := by
  simp [decodeBytes, h]

theorem decodeBytes_encode_append (i : Instr) (rest : List Byte) :
    decodeBytes (encode i ++ rest) = .ok (.instr i, rest) := by
  obtain ⟨r, hr, x, rfl⟩ := exists_row_instr i
  rw [encode_row hr]
  cases h : hasOperand r.opcode with
  | true =>
    rw [← decode_row hr]
    exact decodeBytes_of_hasOperand h x rest
  | false =>
    rw [instr_of_not_hasOperand hr h x 0, ← decode_row hr]
    exact decodeBytes_of_not_hasOperand h rest

/-- Decoding a stream to its end starts with its first instruction (30_encoding.md R54). -/
theorem decodeAll_of_decodeBytes {bytes rest : List Byte} {d : Decoded} (h : decodeBytes bytes = .ok (d, rest)) :
    decodeAll bytes = (decodeAll rest).map (d :: ·) := by
  cases bytes with
  | nil => cases h
  | cons op tail =>
    cases hop : hasOperand op with
    | false =>
      rw [decodeBytes_of_not_hasOperand hop] at h
      cases h
      rw [decodeAll.eq_def]
      simp [hop]
    | true =>
      cases tail with
      | nil => simp [decodeBytes, hop] at h
      | cons x tail =>
        rw [decodeBytes_of_hasOperand hop] at h
        cases h
        rw [decodeAll.eq_def]
        simp [hop]

theorem decodeAll_flatMap_encode (program : List Instr) :
    decodeAll (program.flatMap encode) = .ok (program.map .instr) := by
  induction program with
  | nil => simp [decodeAll]
  | cons i program ih =>
    rw [List.flatMap_cons, decodeAll_of_decodeBytes (decodeBytes_encode_append i _), ih]
    rfl

/-- Settles O1: one instruction by its table row, and a program by induction over its instructions. -/
theorem decodeOfEncodeGivesInstruction : Obligations.DecodeOfEncodeGivesInstruction :=
  ⟨decodeBytes_encode_append, decodeAll_flatMap_encode⟩

/-- Settles O2: the opcode of a decoded instruction is that of its row, whose encoding the stream begins with. -/
theorem decodedBytesAreTheEncoding : Obligations.DecodedBytesAreTheEncoding := by
  unfold Obligations.DecodedBytesAreTheEncoding
  intro bytes i rest h
  cases bytes with
  | nil => cases h
  | cons op tail =>
    cases hop : hasOperand op with
    | false =>
      rw [decodeBytes_of_not_hasOperand hop] at h
      obtain ⟨hdec, rfl⟩ := Prod.mk.inj (Except.ok.inj h)
      obtain ⟨r, hr, rfl, rfl⟩ := decode_eq_instr hdec
      simp [encode_row hr, hop]
    | true =>
      cases tail with
      | nil => simp [decodeBytes, hop] at h
      | cons x tail =>
        rw [decodeBytes_of_hasOperand hop] at h
        obtain ⟨hdec, rfl⟩ := Prod.mk.inj (Except.ok.inj h)
        obtain ⟨r, hr, rfl, rfl⟩ := decode_eq_instr hdec
        simp [encode_row hr, hop]

/-- Settles O6: eight words, each decoded by evaluation. -/
theorem writtenOutWordsDecode : Obligations.WrittenOutWordsDecode := by
  unfold Obligations.WrittenOutWordsDecode
  decide

/-! ### Configurations (00_scope.md section 3) -/

theorem Width.ofBits?_eq_some_iff {n : Nat} {w : Width} : Width.ofBits? n = some w ↔ w.bits = n := by
  have hnodup : ([Width.w4, .w8, .w16, .w32, .w64].map Width.bits).Nodup := by decide
  have hall : w ∈ [Width.w4, .w8, .w16, .w32, .w64] := by cases w <;> decide
  exact (find?_key_eq_some_iff hnodup).trans (and_iff_right hall)

/-- A configuration comes from the pair of its width and its memory size, and from no other. -/
theorem Config.make?_eq_some_iff {bits memsize : Nat} {c : Config} :
    Config.make? bits memsize = some c ↔ c.width.bits = bits ∧ c.memsize = memsize := by
  constructor
  · intro h
    unfold Config.make? at h
    split at h
    · cases h
    · next w hw =>
      split at h
      · cases h
        exact ⟨Width.ofBits?_eq_some_iff.mp hw, rfl⟩
      · cases h
  · rintro ⟨hbits, rfl⟩
    simp [Config.make?, Width.ofBits?_eq_some_iff.mpr hbits, c.memsize_pos]

theorem exists_width_iff (n : Nat) : (∃ w : Width, w.bits = n) ↔ n ∈ [4, 8, 16, 32, 64] := by
  constructor
  · rintro ⟨w, rfl⟩
    cases w <;> decide
  · intro h
    simp only [List.mem_cons, List.not_mem_nil, or_false] at h
    rcases h with rfl | rfl | rfl | rfl | rfl
    exacts [⟨.w4, rfl⟩, ⟨.w8, rfl⟩, ⟨.w16, rfl⟩, ⟨.w32, rfl⟩, ⟨.w64, rfl⟩]

theorem legalConfig_iff (bits memsize : Nat) :
    legalConfig bits memsize = true ↔ (∃ w : Width, w.bits = bits) ∧ 0 < memsize := by
  rw [exists_width_iff]
  simp only [legalConfig, Bool.and_eq_true, List.contains_iff_mem, decide_eq_true_eq]
  exact Iff.rfl

/-- Settles O7: a configuration is made of exactly its width's bits and its memory size. -/
theorem acceptedConfigurations : Obligations.AcceptedConfigurations := by
  unfold Obligations.AcceptedConfigurations
  intro bits memsize
  constructor
  · rw [legalConfig_iff, Option.isSome_iff_exists]
    constructor
    · rintro ⟨c, hc⟩
      obtain ⟨hbits, rfl⟩ := Config.make?_eq_some_iff.mp hc
      exact ⟨⟨c.width, hbits⟩, c.memsize_pos⟩
    · rintro ⟨⟨w, hw⟩, hpos⟩
      exact ⟨⟨w, memsize, hpos⟩, Config.make?_eq_some_iff.mpr ⟨hw, rfl⟩⟩
  · intro c hc
    obtain ⟨rfl, rfl⟩ := Config.make?_eq_some_iff.mp hc
    exact ⟨rfl, rfl, rfl, rfl⟩

end Sys2Proof.Machine

/-! ## What an instruction and a tick do to each component (10_state.md, 20_memory.md)

Memory and the queues after an instruction, which `exec_eq_next` does not speak of, and when an instruction goes on at
all; a tick is then its instruction between step 1 and the fetch. -/

namespace Sys2Proof.Machine

/-! ### Memory and the queues after an instruction -/

/-- An instruction changes memory at its store address alone; READ takes the input's head and WRITE adds to the output
(20_memory.md R39, 10_state.md R26, R27). -/
theorem exec_mem_queues {i : Instr} {s t : State} (h : exec i s = .next t) :
    t = { t with
      mem := (storeAddress i s).elim s.mem fun a => s.mem.write a (toByte s.regA)
      inQ := if i = .read then s.inQ.tail else s.inQ
      outQ := if i = .write then s.outQ ++ [s.regA] else s.outQ } := by
  cases i with
  | loadi | savei =>
    simp only [exec_loadi, exec_savei] at h
    split at h <;> cases h <;> simp [storeAddress, *]
  | load x | save x =>
    simp only [exec_load, exec_save] at h
    split at h <;> cases h
    rfl
  | jumpz x | jumpnz x | jumpo x =>
    simp only [exec_jumpz, exec_jumpnz, exec_jumpo] at h
    cases h
    rfl
  | read =>
    rw [exec_read] at h
    cases h
    rfl
  | _ =>
    cases h
    rfl

theorem exec_mem {i : Instr} {s t : State} (h : exec i s = .next t) :
    t.mem = (storeAddress i s).elim s.mem fun a => s.mem.write a (toByte s.regA) :=
  congrArg State.mem (exec_mem_queues h)

theorem exec_inQ {i : Instr} {s t : State} (h : exec i s = .next t) :
    t.inQ = if i = .read then s.inQ.tail else s.inQ :=
  congrArg State.inQ (exec_mem_queues h)

theorem exec_outQ {i : Instr} {s t : State} (h : exec i s = .next t) :
    t.outQ = if i = .write then s.outQ ++ [s.regA] else s.outQ :=
  congrArg State.outQ (exec_mem_queues h)

theorem exec_cfg {i : Instr} {s t : State} (h : exec i s = .next t) : t.cfg = s.cfg := by
  rw [exec_eq_next h]

theorem exec_ir {i : Instr} {s t : State} (h : exec i s = .next t) : t.ir = s.ir := by
  rw [exec_eq_next h]

theorem exec_opnd {i : Instr} {s t : State} (h : exec i s = .next t) : t.opnd = s.opnd := by
  rw [exec_eq_next h]

/-! ### Which instructions go on -/

/-- Every address an operand byte can name is below 256 (44_memory_access.md R93). -/
theorem uncheckedAddress_lt {i : Instr} {a : Nat} (h : uncheckedAddress i = some a) : a < 256 := by
  cases i with
  | load x | save x =>
    obtain rfl := Option.some.inj h
    exact x.isLt
  | _ => cases h

theorem takenTarget_lt {i : Instr} {s : State} {a : Nat} (h : takenTarget i s = some a) : a < 256 := by
  cases i with
  | jump x =>
    obtain rfl := Option.some.inj h
    exact x.isLt
  | jumpz x | jumpnz x | jumpo x =>
    simp only [takenTarget, Option.ite_none_right_eq_some, Option.some.injEq] at h
    obtain ⟨-, rfl⟩ := h
    exact x.isLt
  | _ => cases h

/-- An instruction stops only where LOAD or SAVE names a missing cell (44_memory_access.md R96, R97). -/
theorem exec_progress {i : Instr} {s : State} (h : ∀ a, uncheckedAddress i = some a → a < s.cfg.memsize) :
    ∃ t, exec i s = .next t := by
  cases i with
  | loadi | savei => by_cases hb : s.regB < s.cfg.memsize <;> simp [hb]
  | load x | save x => simp [h x.toNat rfl]
  | _ => simp

theorem exec_fault {i : Instr} {s : State} {a : Nat} (hi : uncheckedAddress i = some a) (ha : s.cfg.memsize ≤ a) :
    exec i s = .fault (.addressOutOfRange a) := by
  cases i with
  | load x | save x =>
    obtain rfl := Option.some.inj hi
    exact if_neg (not_lt.mpr ha)
  | _ => cases hi

/-- Settles O43: progress by the unchecked address, and the stop that names it. -/
theorem everyInstructionGoesOnOrNamesTheMissingCell : Obligations.EveryInstructionGoesOnOrNamesTheMissingCell :=
  fun _ _ => ⟨exec_progress, fun _ => exec_fault⟩

/-- A store goes to a cell that exists, or the instruction stops (20_memory.md R41). -/
theorem storeAddress_lt {i : Instr} {s t : State} {a : Nat} (h : exec i s = .next t) (ha : storeAddress i s = some a) :
    a < s.cfg.memsize := by
  cases i with
  | savei =>
    simp only [storeAddress, Option.ite_none_right_eq_some, Option.some.injEq] at ha
    obtain ⟨hb, rfl⟩ := ha
    exact hb
  | save x =>
    obtain rfl := Option.some.inj ha
    exact (memWrite_eq_next h).1
  | _ => cases ha

/-! ### The steps of a tick -/

/-- A tick that runs an instruction: step 1, the instruction, the fetch (40_execution_cycle.md R67 to R69). -/
theorem step_eq_exec_fetch {s : State} {i : Instr} (hrun : s.halted = false) (hi : buffered s = .instr i) :
    step s = andThen (exec i s.clearOutputWasWritten) fetch := by
  rw [step_of_running hrun, executeBuffer_of_instr (by simpa using hi)]

/-- A tick that meets an unassigned opcode: step 1 and the fetch (30_encoding.md R61). -/
theorem step_eq_fetch_of_unassigned {s : State} {op : Byte} (hrun : s.halted = false)
    (hop : buffered s = .unassigned op) : step s = fetch s.clearOutputWasWritten := by
  rw [step_of_running hrun, executeBuffer_of_unassigned (by simpa using hop), andThen_next]

theorem step_cfg {s t : State} (h : step s = .next t) : t.cfg = s.cfg := by
  obtain ⟨-, rfl⟩ | ⟨-, u, hu, -, rfl⟩ := step_cases h
  · rfl
  · obtain ⟨i, -, hexec⟩ | ⟨-, -, rfl⟩ := executeBuffer_cases hu
    · simp [exec_cfg hexec]
    · simp

/-! ### The queues, the prefetch buffer and the configuration -/

/-- Settles O40: the queues after an instruction. -/
theorem queuesHaveOneInstructionEach : Obligations.QueuesHaveOneInstructionEach := by
  unfold Obligations.QueuesHaveOneInstructionEach
  intro i s t h
  rw [exec_inQ h, exec_outQ h, exec_outputWasWritten h]
  refine ⟨fun hi => if_neg hi, fun hi => if_pos hi, fun hi => ⟨if_neg hi, by simp [hi]⟩, fun hi => if_pos hi⟩

@[simp] theorem hostReset_cfg (mode : StartMode) (s : State) : (hostReset mode s).cfg = s.cfg := by
  cases mode with
  | resetPrefetch => exact refill_cfg _
  | bubble => rfl

@[simp] theorem hostReset_mem (mode : StartMode) (s : State) : (hostReset mode s).mem = s.mem := by
  cases mode with
  | resetPrefetch => exact refill_mem _
  | bubble => rfl

theorem hostStep_cfg {mode : StartMode} {op : HostOp} {s t : State} {r : HostResult}
    (h : hostStep mode op s = .returns t r) : t.cfg = s.cfg := by
  obtain rfl | hstep | rfl | ⟨v, rfl⟩ | rfl | ⟨bytes, offset, hload⟩ := hostStep_cases h
  · rfl
  · exact step_cfg hstep
  · exact hostReset_cfg mode s
  · rfl
  · exact popOutput_cfg s
  · obtain ⟨bs, -, -, -, rfl⟩ := hostLoad_eq_ok hload
    rfl

/-- Settles O39, from the frames of an instruction and of a host operation. -/
theorem bufferAndConfigurationAreNoInstructions : Obligations.BufferAndConfigurationAreNoInstructions := by
  unfold Obligations.BufferAndConfigurationAreNoInstructions
  refine ⟨fun i s t h => ⟨exec_ir h, exec_opnd h, exec_cfg h⟩, fun mode op s t r => hostStep_cfg, ?other⟩
  intro mode op s t r h htick hreset
  rw [hostStep_frame h htick hreset]
  exact ⟨rfl, rfl⟩

/-! ### The one cell a tick stores to -/

theorem toByte_eq (v : Nat) : toByte v = BitVec.ofNat 8 (v % 256) := by
  apply BitVec.eq_of_toNat_eq
  simp [toByte]

theorem exec_mem_read_other {i : Instr} {s t : State} {x : Nat} (h : exec i s = .next t)
    (hx : storeAddress i s ≠ some x) : t.mem.read x = s.mem.read x := by
  rw [exec_mem h]
  cases ha : storeAddress i s with
  | none => rfl
  | some a => exact Memory.read_write_other _ _ fun hxa => hx (by rw [ha, hxa])

theorem exec_mem_read_stored {i : Instr} {s t : State} {a : Nat} (h : exec i s = .next t)
    (ha : storeAddress i s = some a) : t.mem.read a = BitVec.ofNat 8 (s.regA % 256) := by
  rw [exec_mem h, ha, ← toByte_eq]
  exact Memory.read_write_same _ _ _

@[simp] theorem storeAddress_clearOutputWasWritten (i : Instr) (s : State) :
    storeAddress i s.clearOutputWasWritten = storeAddress i s := by
  cases i <;> rfl

/-- Settles O44: the fetch leaves memory as the instruction left it. -/
theorem tickChangesOnlyTheStoreAddress : Obligations.TickChangesOnlyTheStoreAddress := by
  unfold Obligations.TickChangesOnlyTheStoreAddress
  constructor
  · intro s t i hrun hi h
    obtain ⟨u, hu, rfl⟩ := step_of_instr hrun hi h
    rw [refill_mem]
    constructor
    · exact fun x hx => (exec_mem_read_other hu (by simpa using hx)).trans rfl
    · exact fun a ha => (exec_mem_read_stored hu (by simpa using ha)).trans rfl
  · intro s t op hrun hop h
    rw [step_of_unassigned hrun hop h, refill_mem]
    rfl

/-- Storing to a cell that exists goes on and changes memory only (44_memory_access.md R95, R97). -/
theorem exec_of_storeAddress {i : Instr} {s : State} {a : Nat} (h : storeAddress i s = some a)
    (ha : a < s.cfg.memsize) : exec i s = .next { s with mem := s.mem.write a (toByte s.regA) } := by
  cases i with
  | savei =>
    simp only [storeAddress, Option.ite_none_right_eq_some, Option.some.injEq] at h
    obtain ⟨-, rfl⟩ := h
    rw [exec_savei, if_pos ha]
  | save x =>
    obtain rfl := Option.some.inj h
    rw [exec_save, if_pos ha]
  | _ => cases h

/-- Settles O30: after the store the fetch reads the memory the store left. -/
theorem storeIsSeenByTheSameTicksFetch : Obligations.StoreIsSeenByTheSameTicksFetch := by
  unfold Obligations.StoreIsSeenByTheSameTicksFetch
  intro s i a hrun hi hstore ha hpc
  have hstore' : storeAddress i s.clearOutputWasWritten = some a := by simpa using hstore
  have hexec := exec_of_storeAddress hstore' ha
  refine ⟨refill { s.clearOutputWasWritten with mem := s.mem.write a (toByte s.regA) },
    ?step, ?cell, ?others, ?opcode, ?operand⟩
  case step =>
    rw [step_eq_exec_fetch hrun hi, hexec]
    exact fetch_in_range hpc
  case cell =>
    rw [refill_mem]
    exact (exec_mem_read_stored hexec hstore').trans rfl
  case others =>
    intro x hx
    rw [refill_mem]
    exact (exec_mem_read_other hexec (by simpa [hstore] using hx.symm)).trans rfl
  case opcode => simp
  case operand => simp [nextAddress]

/-! ### Taken jumps and buffered encodings -/

/-- A taken jump writes its target to `pc` and nothing else (43_control.md R87). -/
theorem exec_of_takenTarget {i : Instr} {s : State} {a : Nat} (h : takenTarget i s = some a) :
    exec i s = .next { s with pc := a } := by
  cases i with
  | jump x =>
    obtain rfl := Option.some.inj h
    rfl
  | jumpz x | jumpnz x | jumpo x =>
    simp only [takenTarget, Option.ite_none_right_eq_some, Option.some.injEq] at h
    obtain ⟨hc, rfl⟩ := h
    simp [hc]
  | _ => cases h

@[simp] theorem takenTarget_clearOutputWasWritten (i : Instr) (s : State) :
    takenTarget i s.clearOutputWasWritten = takenTarget i s := by
  cases i <;> rfl

/-- A tick that executes a taken jump is the fetch at the target (43_control.md R87). -/
theorem step_of_takenTarget {s : State} {i : Instr} {a : Nat} (hrun : s.halted = false) (hi : buffered s = .instr i)
    (ha : takenTarget i s = some a) : step s = fetch { s with outputWasWritten := false, pc := a } := by
  rw [step_eq_exec_fetch hrun hi, exec_of_takenTarget (by simpa using ha)]
  rfl

/-- Settles O28: the tick is the fetch at the target, on either side of the end of memory. -/
theorem takenJumpFetchesItsTarget : Obligations.TakenJumpFetchesItsTarget := by
  unfold Obligations.TakenJumpFetchesItsTarget
  intro s i a hrun hi htaken
  rw [step_of_takenTarget hrun hi htaken]
  constructor
  · intro ha
    refine ⟨_, fetch_in_range ha, refill_frame _, refill_ir _, ?operand, ?pc⟩
    case operand => simp [nextAddress]
    case pc => rw [refill_ir, refill_pc, nextAddress_nextAddress, nextAddress]
  · exact fun ha => fetch_out_of_range ha

/-- Settles O27: the encoding is that of the instruction's row, of one byte or of two. -/
theorem fetchedEncodingIsBuffered : Obligations.FetchedEncodingIsBuffered := by
  unfold Obligations.FetchedEncodingIsBuffered
  intro s i hpc hbytes
  obtain ⟨r, hr, x, rfl⟩ := exists_row_instr i
  rw [encode_row hr] at hbytes ⊢
  refine ⟨refill s, fetch_in_range hpc, ?_⟩
  cases hop : hasOperand r.opcode with
  | true =>
    simp only [hop, if_true] at hbytes
    have hopcode : s.mem.read s.pc = r.opcode := by
      simpa [Nat.mod_eq_of_lt hpc] using hbytes 0 (by simp)
    have hoperand : s.mem.read (nextAddress s.cfg s.pc) = x := hbytes 1 (by simp)
    rw [refill_of_hasOperand (hopcode ▸ hop), hopcode, hoperand, nextAddress_nextAddress]
    exact ⟨decode_row hr x, rfl, rfl⟩
  | false =>
    simp only [hop, Bool.false_eq_true, if_false] at hbytes
    have hopcode : s.mem.read s.pc = r.opcode := by
      simpa [Nat.mod_eq_of_lt hpc] using hbytes 0 (by simp)
    rw [refill_of_not_hasOperand (hopcode ▸ hop), hopcode, instr_of_not_hasOperand hr hop x 0]
    exact ⟨decode_row hr 0, rfl, rfl⟩

end Sys2Proof.Machine

/-! ## The invariants (10_state.md section 7)

Each part of a tick and each host operation keeps `StateInv`; the invariants of a step, of every reachable state and of
every run in a large memory follow. -/

namespace Sys2Proof.Machine

/-! ### Instructions and the tick -/

/-- An instruction writes words to the registers (10_state.md R28). -/
theorem exec_regs_lt {i : Instr} {s t : State} (h : exec i s = .next t) (hA : s.regA < s.cfg.modulus)
    (hB : s.regB < s.cfg.modulus) : t.regA < s.cfg.modulus ∧ t.regB < s.cfg.modulus := by
  cases i with
  | swap =>
    cases h
    exact ⟨hB, hA⟩
  | add | addl x =>
    cases h
    exact ⟨aluAdd_lt _ _ _, hB⟩
  | sub | subl x =>
    cases h
    exact ⟨aluSub_lt _ _ _, hB⟩
  | addlb x =>
    cases h
    exact ⟨hA, aluAdd_lt _ _ _⟩
  | set x =>
    cases h
    exact ⟨byteToWord_lt _ x, hB⟩
  | setb x =>
    cases h
    exact ⟨hA, byteToWord_lt _ x⟩
  | read =>
    rw [exec_read] at h
    cases h
    refine ⟨?_, hB⟩
    cases s.inQ with
    | nil => exact Config.modulus_pos _
    | cons v rest => exact intToWord_lt _ v
  | load x =>
    rw [exec_load] at h
    split at h <;> cases h
    exact ⟨byteToWord_lt _ _, hB⟩
  | loadi =>
    rw [exec_loadi] at h
    split at h <;> cases h
    exacts [⟨byteToWord_lt _ _, hB⟩, ⟨hA, hB⟩]
  | savei | save x =>
    simp only [exec_savei, exec_save] at h
    split at h <;> cases h <;> exact ⟨hA, hB⟩
  | jumpz x | jumpnz x | jumpo x =>
    simp only [exec_jumpz, exec_jumpnz, exec_jumpo] at h
    cases h
    exact ⟨hA, hB⟩
  | nop | write | halt | jump x =>
    cases h
    exact ⟨hA, hB⟩

/-- An instruction keeps every invariant but the bound of `pc`, which a jump may leave to the fetch (10_state.md R20). -/
theorem exec_keeps_inv {i : Instr} {s t : State} (hs : StateInv s) (h : exec i s = .next t)
    (hpc : t.pc < t.cfg.memsize) : StateInv t where
  pc_lt := hpc
  mem_wf := by
    rw [exec_mem h]
    cases storeAddress i s with
    | none => exact hs.mem_wf
    | some a => exact Memory.write_wf hs.mem_wf a _
  mem_within := by
    rw [exec_mem h, exec_cfg h]
    cases ha : storeAddress i s with
    | none => exact hs.mem_within
    | some a => exact Memory.write_within hs.mem_within (storeAddress_lt h ha) _
  regA_lt := by
    rw [exec_cfg h]
    exact (exec_regs_lt h hs.regA_lt hs.regB_lt).1
  regB_lt := by
    rw [exec_cfg h]
    exact (exec_regs_lt h hs.regA_lt hs.regB_lt).2
  faulted_halted := by
    rw [exec_faulted h, exec_halted h]
    have := hs.faulted_halted
    cases raisesFault i s <;> simp_all
  outQ_lt := by
    rw [exec_outQ h, exec_cfg h]
    split
    · simpa [or_imp, forall_and] using ⟨hs.outQ_lt, hs.regA_lt⟩
    · exact hs.outQ_lt
  buffer_wf := by
    rw [exec_ir h, exec_opnd h]
    exact hs.buffer_wf

theorem clearOutputWasWritten_keeps_inv {s : State} (hs : StateInv s) : StateInv s.clearOutputWasWritten :=
  ⟨hs.pc_lt, hs.mem_wf, hs.mem_within, hs.regA_lt, hs.regB_lt, hs.faulted_halted, hs.outQ_lt, hs.buffer_wf⟩

theorem refill_keeps_inv {s : State} (hs : StateInv s) : StateInv (refill s) where
  pc_lt := by simpa only [refill_cfg] using refill_pc_lt s
  mem_wf := by simpa using hs.mem_wf
  mem_within := by simpa using hs.mem_within
  regA_lt := by simpa using hs.regA_lt
  regB_lt := by simpa using hs.regB_lt
  faulted_halted := by simpa using hs.faulted_halted
  outQ_lt := by simpa using hs.outQ_lt
  buffer_wf := refill_buffer_wf s

theorem step_keeps_inv {s t : State} (hs : StateInv s) (h : step s = .next t) : StateInv t := by
  obtain ⟨-, rfl⟩ | ⟨-, u, hu, hpc, rfl⟩ := step_cases h
  · exact hs
  · have hs' := clearOutputWasWritten_keeps_inv hs
    refine refill_keeps_inv ?_
    obtain ⟨i, -, hexec⟩ | ⟨-, -, rfl⟩ := executeBuffer_cases hu
    · exact exec_keeps_inv hs' hexec hpc
    · exact hs'

/-- Settles O31: the invariants through the three parts of a tick. -/
theorem stepKeepsTheInvariants : Obligations.StepKeepsTheInvariants := fun _ _ => step_keeps_inv

/-! ### The host's operations -/

/-- A reset establishes all the invariants that memory does not carry over (10_state.md R36). -/
theorem clearForReset_inv {s : State} (hwf : s.mem.wf = true) (hwithin : s.mem.within s.cfg.memsize = true) :
    StateInv (clearForReset s) :=
  ⟨s.cfg.memsize_pos, hwf, hwithin, Config.modulus_pos _, Config.modulus_pos _, nofun, nofun,
    by simp [clearForReset, bufferWellFormed]⟩

theorem hostReset_inv (mode : StartMode) {s : State} (hwf : s.mem.wf = true)
    (hwithin : s.mem.within s.cfg.memsize = true) : StateInv (hostReset mode s) := by
  cases mode with
  | resetPrefetch => exact refill_keeps_inv (clearForReset_inv hwf hwithin)
  | bubble => exact clearForReset_inv hwf hwithin

theorem construct_inv (cfg : Config) (mode : StartMode) (m0 : Nat → Byte) : StateInv (construct cfg mode m0) :=
  hostReset_inv mode (powerOnMemory_wf _ _) (powerOnMemory_within _ _)

theorem pushInput_keeps_inv (v : Int) {s : State} (hs : StateInv s) : StateInv (pushInput v s) :=
  ⟨hs.pc_lt, hs.mem_wf, hs.mem_within, hs.regA_lt, hs.regB_lt, hs.faulted_halted, hs.outQ_lt, hs.buffer_wf⟩

theorem popOutput_keeps_inv {s : State} (hs : StateInv s) : StateInv (popOutput s).2 where
  pc_lt := by simpa using hs.pc_lt
  mem_wf := by simpa using hs.mem_wf
  mem_within := by simpa using hs.mem_within
  regA_lt := by simpa using hs.regA_lt
  regB_lt := by simpa using hs.regB_lt
  faulted_halted := by simpa using hs.faulted_halted
  outQ_lt := by
    rw [popOutput_outQ, popOutput_cfg]
    exact fun v hv => hs.outQ_lt v (List.mem_of_mem_tail hv)
  buffer_wf := by simpa using hs.buffer_wf

theorem hostLoad_keeps_inv {bytes : List Int} {offset : Int} {s t : State} (hs : StateInv s)
    (h : hostLoad bytes offset s = .ok t) : StateInv t := by
  obtain ⟨bs, -, -, hlen, rfl⟩ := hostLoad_eq_ok h
  exact ⟨hs.pc_lt, Memory.writeBytes_wf bs hs.mem_wf _, Memory.writeBytes_within bs hs.mem_within hlen, hs.regA_lt,
    hs.regB_lt, hs.faulted_halted, hs.outQ_lt, hs.buffer_wf⟩

theorem hostStep_keeps_inv {mode : StartMode} {op : HostOp} {s t : State} {r : HostResult} (hs : StateInv s)
    (h : hostStep mode op s = .returns t r) : StateInv t := by
  obtain rfl | hstep | rfl | ⟨v, rfl⟩ | rfl | ⟨bytes, offset, hload⟩ := hostStep_cases h
  · exact hs
  · exact step_keeps_inv hs hstep
  · exact hostReset_inv mode hs.mem_wf hs.mem_within
  · exact pushInput_keeps_inv v hs
  · exact popOutput_keeps_inv hs
  · exact hostLoad_keeps_inv hs hload

/-- Settles O32: `State.reset` is a constructed state. -/
theorem resetMeetsTheInvariants : Obligations.ResetMeetsTheInvariants := by
  unfold Obligations.ResetMeetsTheInvariants
  rw [reset_eq_construct]
  exact construct_inv _ _ _

theorem construct_cfg (cfg : Config) (mode : StartMode) (m0 : Nat → Byte) : (construct cfg mode m0).cfg = cfg :=
  hostReset_cfg mode _

/-- The induction over reachable states: construction and every host operation keep the invariants and the
configuration. -/
theorem reachable_inv_cfg {cfg : Config} {mode : StartMode} {m0 : Nat → Byte} {s : State}
    (h : Reachable cfg mode m0 s) : StateInv s ∧ s.cfg = cfg := by
  induction h with
  | constructed => exact ⟨construct_inv _ _ _, construct_cfg _ _ _⟩
  | afterOp _ hop ih => exact ⟨hostStep_keeps_inv ih.1 hop, (hostStep_cfg hop).trans ih.2⟩

/-- Settles O33: one lemma per host operation, and the induction over reachable states. -/
theorem reachableStatesMeetTheInvariants : Obligations.ReachableStatesMeetTheInvariants :=
  ⟨fun _ _ _ _ _ hs h => ⟨hostStep_keeps_inv hs h, hostStep_cfg h⟩,
    fun _ _ _ => ⟨construct_inv _ _ _, construct_cfg _ _ _⟩, fun _ _ _ _ => reachable_inv_cfg⟩

/-! ### A memory of 256 cells or more -/

/-- With 256 cells every cell that an operand byte names exists, so that neither the instruction nor the fetch stops
(40_execution_cycle.md R72). -/
theorem step_progress {s : State} (hpc : s.pc < s.cfg.memsize) (hlarge : 256 ≤ s.cfg.memsize) :
    ∃ t, step s = .next t := by
  cases hrun : s.halted with
  | true => exact ⟨s, step_of_halted hrun⟩
  | false =>
    cases hb : buffered s with
    | unassigned op => exact ⟨_, step_eq_refill_of_unassigned hrun hb hpc⟩
    | instr i =>
      obtain ⟨u, hu⟩ := exec_progress (i := i) (s := s.clearOutputWasWritten) fun a ha =>
        (uncheckedAddress_lt ha).trans_le hlarge
      have hupc : u.pc < u.cfg.memsize := by
        rw [exec_pc hu, exec_cfg hu]
        cases ht : takenTarget i s.clearOutputWasWritten with
        | none => exact hpc
        | some a => exact (takenTarget_lt ht).trans_le hlarge
      exact ⟨refill u, by rw [step_eq_exec_fetch hrun hb, hu, andThen_next, fetch_in_range hupc]⟩

theorem ticks_progress (n : Nat) {s : State} (hs : StateInv s) (hlarge : 256 ≤ s.cfg.memsize) :
    ∃ t, ticks n s = .next t := by
  induction n generalizing s with
  | zero => exact ⟨s, rfl⟩
  | succ n ih =>
    obtain ⟨u, hu⟩ := step_progress hs.pc_lt hlarge
    obtain ⟨t, ht⟩ := ih (step_keeps_inv hs hu) (by rwa [step_cfg hu])
    exact ⟨t, by rw [ticks, hu, andThen_next, ht]⟩

/-- Settles O45: progress from the size of memory, and the invariants from O31 and O33. -/
theorem largeMemoryNeverMeetsUndefined : Obligations.LargeMemoryNeverMeetsUndefined := by
  unfold Obligations.LargeMemoryNeverMeetsUndefined
  constructor
  · intro s hs hlarge
    obtain ⟨t, ht⟩ := step_progress hs.pc_lt hlarge
    exact ⟨t, ht, step_keeps_inv hs ht⟩
  · intro cfg mode m0 s hlarge hreach n
    obtain ⟨hs, rfl⟩ := reachable_inv_cfg hreach
    exact ticks_progress n hs hlarge

end Sys2Proof.Machine

/-! ## Results of single instructions (41_alu_register.md, 43_control.md, 44_memory_access.md)

The tier 1 results of the register, control and memory instructions, from the equation of each. -/

namespace Sys2Proof.Machine

/-! ### Registers -/

/-- Settles O14: the sum of B and the literal, and its flag. -/
theorem addlbAddsToB : Obligations.AddlbAddsToB := by
  unfold Obligations.AddlbAddsToB
  intro imm s
  rw [exec_addlb, aluAdd_eq]

/-- From `W = 8` up every byte is a word (00_scope.md R6, R7). -/
theorem Config.le_modulus_of_ne_w4 {c : Config} (h : c.width ≠ .w4) : 256 ≤ c.modulus := by
  have hbits : 8 ≤ c.width.bits := by
    cases hw : c.width with
    | w4 => exact absurd hw h
    | w8 | w16 | w32 | w64 => decide
  exact Nat.pow_le_pow_right (n := 2) (by decide) hbits

theorem byteToWord_of_ne_w4 {c : Config} (h : c.width ≠ .w4) (b : Byte) : byteToWord c b = b.toNat :=
  Nat.mod_eq_of_lt (b.isLt.trans_le (Config.le_modulus_of_ne_w4 h))

/-- Settles O15: the literal as a word, which for `W ≥ 8` it already is. -/
theorem setAndSetbWriteTheLiteral : Obligations.SetAndSetbWriteTheLiteral := by
  unfold Obligations.SetAndSetbWriteTheLiteral
  refine ⟨fun imm s => exec_set s imm, fun imm s => exec_setb s imm, ?wide, ?zero⟩
  case wide =>
    intro imm s hw
    rw [exec_set, exec_setb, byteToWord_of_ne_w4 hw]
    exact ⟨rfl, rfl⟩
  case zero =>
    intro s
    have hzero : byteToWord s.cfg 0 = 0 := Nat.zero_mod _
    rw [exec_set, hzero]

/-! ### Control -/

/-- Settles O19: a jump not taken leaves `pc`. -/
theorem jumpsWriteTheirTargets : Obligations.JumpsWriteTheirTargets :=
  ⟨fun addr s => exec_jump s addr, fun addr s => exec_jumpz s addr, fun addr s => exec_jumpnz s addr,
    fun addr s => exec_jumpo s addr⟩

theorem ticks_of_halted {s : State} (h : s.halted = true) (n : Nat) : ticks n s = .next s := by
  induction n with
  | zero => rfl
  | succ n ih => rw [ticks, step_of_halted h, andThen_next, ih]

theorem harnessRun_of_halted {s : State} (h : s.halted = true) (n : Nat) (popped : List Nat) :
    harnessRun n s popped = .next (s, popped) := by
  cases n with
  | zero => rfl
  | succ n => simp [harnessRun, isHalted, h]

/-- Settles O29: by induction on the ticks; the harness asks `isHalted` before its first. -/
theorem haltedMachineStaysAsItIs : Obligations.HaltedMachineStaysAsItIs :=
  fun _ h n popped => ⟨ticks_of_halted h n, harnessRun_of_halted h n popped⟩

/-- The halting tick still fetches (40_execution_cycle.md R69). -/
theorem step_of_halt {s : State} (hrun : s.halted = false) (hi : buffered s = .instr .halt)
    (hpc : s.pc < s.cfg.memsize) : step s = .next (refill { s with halted := true, outputWasWritten := false }) := by
  rw [step_eq_exec_fetch hrun hi]
  exact fetch_in_range hpc

/-- Settles O18: the halting tick, and then ticks of a halted machine. -/
theorem haltSetsHalted : Obligations.HaltSetsHalted := by
  unfold Obligations.HaltSetsHalted
  refine ⟨exec_halt, fun s hrun hi hpc => ⟨step_of_halt hrun hi hpc, fun n => ?_⟩⟩
  rw [ticks, step_of_halt hrun hi hpc, andThen_next]
  exact ticks_of_halted (refill_halted _) n

/-! ### Memory access -/

/-- Settles O20: LOADI of a cell that exists. -/
theorem loadiReadsTheCellAtB : Obligations.LoadiReadsTheCellAtB := by
  unfold Obligations.LoadiReadsTheCellAtB
  intro s hB
  rw [exec_loadi, if_pos hB]
  rfl

/-- Settles O23: LOAD of a cell that exists. -/
theorem loadReadsTheNamedCell : Obligations.LoadReadsTheNamedCell := by
  unfold Obligations.LoadReadsTheNamedCell
  intro addr s ha
  rw [exec_load, if_pos ha]
  rfl

/-- An instruction that stores to a cell that exists changes that cell alone (20_memory.md R41). -/
theorem exec_store {i : Instr} {s : State} {a : Nat} (h : storeAddress i s = some a) (ha : a < s.cfg.memsize) :
    ∃ t, exec i s = .next t ∧ t = { s with mem := t.mem } ∧ t.mem.read a = BitVec.ofNat 8 (s.regA % 256) ∧
      ∀ x, x ≠ a → t.mem.read x = s.mem.read x := by
  have hexec := exec_of_storeAddress h ha
  refine ⟨_, hexec, rfl, exec_mem_read_stored hexec h, fun x hx => exec_mem_read_other hexec ?_⟩
  simpa [h] using hx.symm

/-- Settles O21: the store address of SAVEI is B. -/
theorem saveiStoresTheLowByteAtB : Obligations.SaveiStoresTheLowByteAtB :=
  fun _ hB => exec_store (if_pos hB) hB

/-- Settles O24: the store address of SAVE is its operand. -/
theorem saveStoresTheLowByte : Obligations.SaveStoresTheLowByte :=
  fun _ _ ha => exec_store rfl ha

/-! ### The tick around the instruction -/

/-- The decoder of a table word reads the buffer that `withFetchWord` fills (log entry 4). -/
theorem decode_of_decodeTableWord {nbits w : Nat} {i : Instr} (h : decodeTableWord nbits w = some i) :
    decode (tableByte nbits w 0) (if hasOperand (tableByte nbits w 0) then tableByte nbits w 1 else 0) = .instr i := by
  unfold decodeTableWord at h
  rw [decodeBytes_cons_cons] at h
  split at h
  · next j rest heq =>
    obtain rfl := Option.some.inj h
    exact (Prod.mk.inj (Except.ok.inj heq)).1
  · cases h

/-- Settles O25: the tick's equation for either kind of buffer, and the buffer that `withFetchWord` fills. -/
theorem stepRunsTheBufferedInstruction : Obligations.StepRunsTheBufferedInstruction :=
  ⟨fun _ _ => step_eq_exec_fetch, fun _ _ => step_eq_fetch_of_unassigned,
    fun _ _ _ _ hrun hw => step_eq_exec_fetch hrun (decode_of_decodeTableWord hw)⟩

end Sys2Proof.Machine

/-! ## The overflow flag and register B (10_state.md R16, R22) -/

namespace Sys2Proof.Machine

/-! ### The overflow flag -/

/-- Only the ADD family writes the flag, and only the writes-B column writes B (10_state.md R16, R22). -/
theorem exec_overflow_regB {i : Instr} {s t : State} (h : exec i s = .next t) :
    t = { t with
      overflow := if writesOverflow i then t.overflow else s.overflow
      regB := if writesB i then t.regB else s.regB } := by
  cases i with
  | loadi | savei | load x | save x =>
    simp only [exec_loadi, exec_savei, exec_load, exec_save] at h
    split at h <;> cases h <;> rfl
  | read | jumpz x | jumpnz x | jumpo x =>
    simp only [exec_read, exec_jumpz, exec_jumpnz, exec_jumpo] at h
    cases h
    rfl
  | _ =>
    cases h
    rfl

theorem exec_overflow_of_not_writesOverflow {i : Instr} {s t : State} (hw : writesOverflow i = false)
    (h : exec i s = .next t) : t.overflow = s.overflow := by
  simpa [hw] using congrArg State.overflow (exec_overflow_regB h)

/-- Instructions other than JUMPO do the same whatever the flag holds (10_state.md R22). -/
theorem exec_with_overflow {i : Instr} (hi : i.mnemonic ≠ .jumpo) (s : State) (f : Bool) :
    exec i { s with overflow := f } =
      mapNext (fun t => if writesOverflow i then t else { t with overflow := f }) (exec i s) := by
  cases i with
  | jumpo x => exact absurd rfl hi
  | loadi | savei => by_cases hb : s.regB < s.cfg.memsize <;> simp [hb, writesOverflow, Instr.mnemonic]
  | load x | save x => by_cases hx : x.toNat < s.cfg.memsize <;> simp [hx, writesOverflow, Instr.mnemonic]
  | _ => simp [writesOverflow, Instr.mnemonic]

theorem step_keeps_overflow {s t : State} (h : step s = .next t)
    (hw : ∀ i, s.halted = false → buffered s = .instr i → writesOverflow i = false) : t.overflow = s.overflow := by
  obtain ⟨-, rfl⟩ | ⟨hrun, u, hu, -, rfl⟩ := step_cases h
  · rfl
  · rw [refill_overflow]
    obtain ⟨i, hi, hexec⟩ | ⟨-, -, rfl⟩ := executeBuffer_cases hu
    · exact (exec_overflow_of_not_writesOverflow (hw i hrun (by simpa using hi)) hexec).trans rfl
    · rfl

/-- Ticks that execute none of the ADD family keep the flag (10_state.md R22). -/
theorem ticks_keep_overflow {n : Nat} {s t : State} (h : ticks n s = .next t)
    (hw : ∀ k u i, k < n → ticks k s = .next u → u.halted = false → buffered u = .instr i → writesOverflow i = false) :
    t.overflow = s.overflow := by
  induction n generalizing s with
  | zero =>
    cases h
    rfl
  | succ n ih =>
    obtain ⟨v, hv, ht⟩ := andThen_eq_next h
    have hlater : t.overflow = v.overflow := by
      refine ih ht fun k u i hk hu => hw (k + 1) u i (by omega) ?_
      rw [ticks, hv, andThen_next, hu]
    exact hlater.trans (step_keeps_overflow hv fun i => hw 0 s i (by omega) rfl)

@[simp] theorem hostReset_overflow (mode : StartMode) (s : State) : (hostReset mode s).overflow = false := by
  cases mode with
  | resetPrefetch => exact refill_overflow _
  | bubble => rfl

/-- Settles O35: the ADD family by its equations, the others by their frame, and the ticks by induction. -/
theorem overflowIsTheAddFamilys : Obligations.OverflowIsTheAddFamilys := by
  unfold Obligations.OverflowIsTheAddFamilys
  refine ⟨?add, ?sub, ?addl, ?subl, ?addlb, fun i s t => exec_overflow_of_not_writesOverflow,
    fun n s t => ticks_keep_overflow, fun i s f hi => exec_with_overflow hi s f, ?jumpo, hostReset_overflow⟩
  case jumpo => exact fun addr s f => exec_jumpo _ addr
  case add | sub =>
    rintro s t ⟨⟩
    rfl
  case addl | subl | addlb =>
    rintro imm s t ⟨⟩
    rfl

/-! ### Register B -/

theorem exec_regB_of_not_writesB {i : Instr} {s t : State} (h : exec i s = .next t) (hw : writesB i = false) :
    t.regB = s.regB := by
  simpa [hw] using congrArg State.regB (exec_overflow_regB h)

/-- What is outside the reads-B column does the same whatever B holds (10_state.md R16). -/
theorem exec_with_regB {i : Instr} (hr : readsB i = false) (s : State) (v : Nat) :
    exec i { s with regB := v } =
      mapNext (fun t => if writesB i then t else { t with regB := v }) (exec i s) := by
  cases i with
  | swap | add | sub | addlb x | loadi | savei => simp [readsB, Instr.mnemonic] at hr
  | load x | save x => by_cases hx : x.toNat < s.cfg.memsize <;> simp [hx, writesB, Instr.mnemonic]
  | nop | read | write | halt | jump x | jumpz x | jumpnz x | jumpo x | addl x | subl x | set x | setb x =>
    simp [writesB, Instr.mnemonic]

/-- Every instruction of the writes-B column gives B another value, with operand 2 where it has one. -/
theorem exec_changes_regB {i : Instr} (hw : writesB i = true) :
    ∃ t, exec (i.mnemonic.instr 2) registerProbe = .next t ∧ t.regB ≠ registerProbe.regB := by
  cases i with
  | swap | addlb x | setb x => exact ⟨_, rfl, by decide⟩
  | _ => simp [writesB, Instr.mnemonic] at hw

/-- For every instruction of the reads-B column it matters whether B is 1 or 0. -/
theorem exec_sees_regB {i : Instr} (hr : readsB i = true) :
    exec i { registerProbe with regB := 0 } ≠
      mapNext (fun t => if writesB i then t else { t with regB := 0 }) (exec i registerProbe) := by
  intro h
  cases i with
  | swap | add | sub | loadi | savei => exact absurd (Host.Outcome.next.inj h) (by decide)
  | addlb x =>
    have hB : (0 + x.toNat) % 256 = (1 + x.toNat) % 256 := congrArg State.regB (Host.Outcome.next.inj h)
    omega
  | _ => simp [readsB, Instr.mnemonic] at hr

/-- Settles O38: as O37 for A, with the same probing state. -/
theorem registerBHasTheSpecsWritersAndReaders : Obligations.RegisterBHasTheSpecsWritersAndReaders := by
  unfold Obligations.RegisterBHasTheSpecsWritersAndReaders
  refine ⟨fun i s t => exec_regB_of_not_writesB, ?swap, fun i s v hr => exec_with_regB hr s v, ?writers, ?readers,
    fun _ _ => rfl⟩
  case swap =>
    intro s t h
    cases h
    rfl
  case writers =>
    intro i hw
    obtain ⟨t, ht, hB⟩ := exec_changes_regB hw
    exact ⟨2, registerProbe, t, registerProbe_inv, ht, hB⟩
  case readers => exact fun i hr => ⟨registerProbe, 0, registerProbe_inv, by decide, exec_sees_regB hr⟩

end Sys2Proof.Machine

/-! ## Memory as data, load, reset and the exact value of the ALU (20_memory.md, 10_state.md sections 10 and 11) -/

namespace Sys2Proof.Machine

/-! ### The canonical form -/

/-- An address below every listed one reads as unlisted. -/
theorem Memory.read_of_forall_lt {m : Memory} {a : Nat} (h : ∀ c ∈ m, a < c.1) : m.read a = Memory.unlisted := by
  induction m with
  | nil => rfl
  | cons c m ih =>
    obtain ⟨hc, hm⟩ := List.forall_mem_cons.mp h
    exact (if_neg hc.ne').trans (ih hm)

theorem Memory.wf_cons_iff {c : Host.Cell} {m : Memory} :
    Memory.wf (c :: m) = true ↔ (∀ d ∈ m, c.1 < d.1) ∧ c.2 ≠ Memory.unlisted ∧ m.wf = true := by
  simp only [Memory.wf_iff, List.pairwise_cons, List.forall_mem_cons]
  tauto

theorem Memory.read_cons_self (c : Host.Cell) (m : Memory) : Memory.read (c :: m) c.1 = c.2 := if_pos rfl

theorem Memory.read_cons_of_ne {c : Host.Cell} {m : Memory} {a : Nat} (h : c.1 ≠ a) :
    Memory.read (c :: m) a = m.read a := if_neg h

/-- In canonical form a listed address reads as its byte, which is not the unlisted one; so the least listed addresses of
two memories that read the same are equal. -/
theorem Memory.head_le_of_read_eq {c d : Host.Cell} {m k : Memory} (hm : Memory.wf (c :: m) = true)
    (hk : Memory.wf (d :: k) = true) (h : Memory.read (c :: m) c.1 = Memory.read (d :: k) c.1) : d.1 ≤ c.1 := by
  obtain ⟨-, hc, -⟩ := Memory.wf_cons_iff.mp hm
  obtain ⟨hd, -, -⟩ := Memory.wf_cons_iff.mp hk
  by_contra hlt
  have hbelow : ∀ e ∈ d :: k, c.1 < e.1 :=
    List.forall_mem_cons.mpr ⟨not_le.mp hlt, fun e he => (not_le.mp hlt).trans (hd e he)⟩
  rw [Memory.read_cons_self, Memory.read_of_forall_lt hbelow] at h
  exact hc h

/-- Memories in canonical form that read the same are the same data: the first cells agree, and then the rest. -/
theorem Memory.eq_of_read_eq {m k : Memory} (hm : m.wf = true) (hk : k.wf = true) (h : ∀ a, m.read a = k.read a) :
    m = k := by
  induction m generalizing k with
  | nil =>
    cases k with
    | nil => rfl
    | cons d k =>
      obtain ⟨-, hd, -⟩ := Memory.wf_cons_iff.mp hk
      exact absurd ((h d.1).trans (Memory.read_cons_self d k)).symm hd
  | cons c m ih =>
    cases k with
    | nil =>
      obtain ⟨-, hc, -⟩ := Memory.wf_cons_iff.mp hm
      exact absurd ((Memory.read_cons_self c m).symm.trans (h c.1)) hc
    | cons d k =>
      have hkey : c.1 = d.1 :=
        le_antisymm (Memory.head_le_of_read_eq hk hm (h d.1).symm) (Memory.head_le_of_read_eq hm hk (h c.1))
      have hcell : c = d := by
        refine Prod.ext hkey ?_
        rw [← Memory.read_cons_self c m, h, hkey, Memory.read_cons_self]
      subst hcell
      obtain ⟨hmabove, -, hm'⟩ := Memory.wf_cons_iff.mp hm
      obtain ⟨hkabove, -, hk'⟩ := Memory.wf_cons_iff.mp hk
      rw [ih hm' hk' fun a => ?_]
      by_cases ha : c.1 = a
      · subst ha
        rw [Memory.read_of_forall_lt hmabove, Memory.read_of_forall_lt hkabove]
      · simpa only [Memory.read_cons_of_ne ha] using h a

/-- Settles O52, by induction on the two lists of cells. -/
theorem canonicalMemoriesAreDeterminedByReads : Obligations.CanonicalMemoriesAreDeterminedByReads :=
  fun _ _ => Memory.eq_of_read_eq

/-! ### Load -/

/-- After a run of bytes is written, its cells hold them and every other cell is as before (20_memory.md R48). -/
theorem Memory.read_writeBytes (bs : List Byte) (m : Memory) (a x : Nat) :
    (m.writeBytes a bs).read x = if a ≤ x then bs[x - a]?.getD (m.read x) else m.read x := by
  induction bs generalizing m a with
  | nil => simp [Memory.writeBytes]
  | cons b bs ih =>
    rw [Memory.writeBytes, ih]
    obtain hlt | rfl | hgt := lt_trichotomy x a
    · rw [if_neg (by omega), if_neg (by omega), Memory.read_write_other _ _ hlt.ne]
    · simp
    · have hsub : x - a = x - (a + 1) + 1 := by omega
      rw [if_pos (Nat.succ_le_of_lt hgt), if_pos hgt.le, hsub, List.getElem?_cons_succ, Memory.read_write_other _ _ hgt.ne']

theorem bytesOf?_map_toNat (bs : List Byte) : bytesOf? (bs.map fun b => (b.toNat : Int)) = some bs := by
  induction bs with
  | nil => rfl
  | cons b bs ih =>
    have hb : (b.toNat : Int) ≤ 255 := by have := b.isLt; omega
    simp [bytesOf?, ih, hb]

theorem bytesOf?_eq_none {vs : List Int} (h : ∃ v ∈ vs, v < 0 ∨ 255 < v) : bytesOf? vs = none := by
  induction vs with
  | nil => simp at h
  | cons w vs ih =>
    by_cases hw : 0 ≤ w ∧ w ≤ 255
    · obtain ⟨v, hv, hbad⟩ := h
      have hv' : v ∈ vs := (List.mem_cons.mp hv).resolve_left (by rintro rfl; omega)
      simp [bytesOf?, ih ⟨v, hv', hbad⟩]
    · simp [bytesOf?, hw]

theorem length_of_bytesOf? {vs : List Int} {bs : List Byte} (h : bytesOf? vs = some bs) : bs.length = vs.length := by
  induction vs generalizing bs with
  | nil =>
    cases h
    rfl
  | cons v vs ih =>
    rw [bytesOf?] at h
    split at h
    · obtain ⟨bs', hbs, rfl⟩ := Option.map_eq_some_iff.mp h
      simp [ih hbs]
    · cases h

/-- Settles O46: what the written cells read as, and the two refusals. -/
theorem loadOverwritesOnlyItsCells : Obligations.LoadOverwritesOnlyItsCells := by
  unfold Obligations.LoadOverwritesOnlyItsCells
  refine ⟨?fits, ?outOfRange, ?notBytes⟩
  case fits =>
    intro bs offset s h0 hlen
    refine ⟨{ s with mem := s.mem.writeBytes offset.toNat bs }, ?_, rfl, ?_, ?_⟩
    · rw [hostLoad, bytesOf?_map_toNat]
      exact if_neg (by omega)
    · intro k hk
      simp [Memory.read_writeBytes, hk]
    · intro x hx
      rw [Memory.read_writeBytes]
      split
      · rw [List.getElem?_eq_none (by omega), Option.getD_none]
      · rfl
  case outOfRange =>
    intro bs offset s h
    have hload : hostLoad (bs.map fun b => (b.toNat : Int)) offset s = .outOfRange := by
      rw [hostLoad, bytesOf?_map_toNat]
      exact if_pos (by omega)
    simp [hostStep, hostLoadOp, hload]
  case notBytes =>
    intro vs offset s h
    rw [hostLoad, bytesOf?_eq_none h]

/-! ### Reset -/

/-- Settles O34: the refill of the cleared state, and the memory of construction. -/
theorem resetLeavesTheSpecsValues : Obligations.ResetLeavesTheSpecsValues := by
  unfold Obligations.ResetLeavesTheSpecsValues
  refine ⟨fun s => rfl, ?prefetch, ?construct, reset_eq_construct⟩
  case prefetch =>
    intro s
    cases hop : hasOperand (s.mem.read 0) with
    | true =>
      refine (refill_of_hasOperand (s := clearForReset s) hop).trans ?_
      rw [nextAddress_nextAddress]
      rfl
    | false => exact (refill_of_not_hasOperand (s := clearForReset s) hop).trans rfl
  case construct =>
    intro cfg mode m0 a ha
    rw [construct, hostReset_mem, powerOnMemory_read, if_pos ha]

/-- Reset leaves a function of the configuration and of memory (70_reset_and_hazards.md R128). -/
theorem hostReset_congr (mode : StartMode) {s u : State} (hcfg : s.cfg = u.cfg) (hmem : s.mem = u.mem) :
    hostReset mode s = hostReset mode u := by
  have hclear : clearForReset s = clearForReset u := by rw [clearForReset, hcfg, hmem, clearForReset]
  cases mode with
  | resetPrefetch => exact congrArg refill hclear
  | bubble => exact hclear

/-- The memories after the same bytes are written are equal, if they were outside those cells. -/
theorem Memory.writeBytes_eq_of_agree {m k : Memory} (hm : m.wf = true) (hk : k.wf = true) (bs : List Byte)
    (h : ∀ a, bs.length ≤ a → m.read a = k.read a) : m.writeBytes 0 bs = k.writeBytes 0 bs := by
  refine Memory.eq_of_read_eq (Memory.writeBytes_wf bs hm 0) (Memory.writeBytes_wf bs hk 0) fun a => ?_
  rw [Memory.read_writeBytes, Memory.read_writeBytes, if_pos a.zero_le, if_pos a.zero_le]
  cases hb : bs[a - 0]? with
  | some b => rfl
  | none => exact h a (List.getElem?_eq_none_iff.mp hb)

/-- Settles O51: after the load the two memories are the same data, and reset leaves the same state. -/
theorem rebootReproducesTheRun : Obligations.RebootReproducesTheRun := by
  unfold Obligations.RebootReproducesTheRun
  intro mode program inputs s u t hcfg hs hu hagree hboot
  unfold boot at hboot ⊢
  split at hboot
  · next s' hload =>
    obtain ⟨bs, hbs, -, hlen, rfl⟩ := hostLoad_eq_ok hload
    have hmem : s.mem.writeBytes 0 bs = u.mem.writeBytes 0 bs :=
      Memory.writeBytes_eq_of_agree hs hu bs (length_of_bytesOf? hbs ▸ hagree)
    have hload' : hostLoad program 0 u = .ok { u with mem := u.mem.writeBytes 0 bs } := by
      rw [hcfg] at hlen
      rw [hostLoad, hbs]
      exact if_neg (by omega)
    rw [hload', ← hboot]
    exact congrArg (fun v => some (pushInputs inputs v)) (hostReset_congr mode hcfg.symm hmem.symm)
  · cases hboot
  · cases hboot

/-! ### The queues and queries -/

/-- Settles O47: each operation by its own equation. -/
theorem queueOperationsAndQueries : Obligations.QueueOperationsAndQueries := by
  unfold Obligations.QueueOperationsAndQueries
  refine fun mode s => ⟨fun v => rfl, ?pop, ?popEmpty, rfl, rfl, rfl, rfl⟩
  case pop =>
    intro v rest h
    simp [hostStep, popOutput, h]
  case popEmpty =>
    intro h
    simp [hostStep, popOutput, h]

/-! ### The exact value -/

/-- A sum of words at or beyond `modulus` wraps once (41_alu_register.md R74). -/
theorem aluAdd_of_modulus_le {c : Config} {x y : Nat} (hle : c.modulus ≤ x + y) (hlt : x + y < 2 * c.modulus) :
    aluAdd c x y = (x + y - c.modulus, true) := by
  have hmax := Config.maxint_add_one c
  have hflag : x + y > c.maxint := by omega
  rw [aluAdd_eq, Nat.mod_eq_sub_mod hle, Nat.mod_eq_of_lt (by omega), decide_eq_true hflag]

/-- Settles O53: either operation wraps at most once. -/
theorem aluResultAndFlagGiveTheExactValue : Obligations.AluResultAndFlagGiveTheExactValue := by
  unfold Obligations.AluResultAndFlagGiveTheExactValue
  intro c x y hx hy
  refine ⟨aluAdd_lt c x y, aluSub_lt c x y, ?sum, ?difference⟩
  case sum =>
    obtain hlt | hle := lt_or_ge (x + y) c.modulus
    · simp [aluAdd_of_sum_lt hlt]
    · rw [aluAdd_of_modulus_le hle (by omega)]
      simp only [if_true]
      omega
  case difference =>
    obtain hlt | hle := lt_or_ge x y
    · rw [aluSub_of_lt hlt (by omega)]
      simp only [if_true]
      omega
    · rw [aluSub_of_le hle hx]
      simp only [Bool.false_eq_true, if_false]
      omega

end Sys2Proof.Machine

/-! ## Runs, inputs and outputs (40_execution_cycle.md section 4, 70_reset_and_hazards.md)

Adding input at the tail and holding back output at the head both commute with a tick, since READ looks at the head of
the input queue alone, WRITE at the tail of the output queue, and nothing else at either. -/

namespace Sys2Proof.Machine

/-! ### A change of the queues around a tick -/

/-- The state with its queues changed by `g` and `k`. -/
def mapQueues (g : List Int → List Int) (k : List Nat → List Nat) (s : State) : State :=
  { s with inQ := g s.inQ, outQ := k s.outQ }

/-- READ finds the same head in the changed input queue and leaves the same rest. -/
def KeepsHead (g : List Int → List Int) (p : List Int) : Prop := (g p).head? = p.head? ∧ (g p).tail = g p.tail

section MapQueues

variable {g : List Int → List Int} {k : List Nat → List Nat}

theorem refill_mapQueues (s : State) : refill (mapQueues g k s) = mapQueues g k (refill s) := by
  cases hop : hasOperand (s.mem.read s.pc) with
  | true =>
    rw [refill_of_hasOperand (s := mapQueues g k s) hop, refill_of_hasOperand hop]
    rfl
  | false =>
    rw [refill_of_not_hasOperand (s := mapQueues g k s) hop, refill_of_not_hasOperand hop]
    rfl

theorem fetch_mapQueues (s : State) : fetch (mapQueues g k s) = mapNext (mapQueues g k) (fetch s) := by
  obtain hpc | hpc := lt_or_ge s.pc s.cfg.memsize
  · rw [fetch_in_range (s := mapQueues g k s) hpc, fetch_in_range hpc, refill_mapQueues, mapNext_next]
  · rw [fetch_out_of_range (s := mapQueues g k s) hpc, fetch_out_of_range hpc]
    rfl

theorem exec_mapQueues {i : Instr} {s : State} (hread : i = .read → KeepsHead g s.inQ)
    (hwrite : ∀ a, k (s.outQ ++ [a]) = k s.outQ ++ [a]) :
    exec i (mapQueues g k s) = mapNext (mapQueues g k) (exec i s) := by
  cases i with
  | read =>
    obtain ⟨hhead, htail⟩ := hread rfl
    simp [mapQueues, hhead, htail]
  | write => simp [mapQueues, hwrite]
  | loadi | savei => by_cases hb : s.regB < s.cfg.memsize <;> simp [mapQueues, hb]
  | load x | save x => by_cases hx : x.toNat < s.cfg.memsize <;> simp [mapQueues, hx]
  | _ => simp [mapQueues]

theorem step_mapQueues {s : State} (hread : buffered s = .instr .read → KeepsHead g s.inQ)
    (hwrite : ∀ a, k (s.outQ ++ [a]) = k s.outQ ++ [a]) :
    step (mapQueues g k s) = mapNext (mapQueues g k) (step s) := by
  cases hrun : s.halted with
  | true =>
    rw [step_of_halted hrun]
    exact step_of_halted (s := mapQueues g k s) hrun
  | false =>
    cases hb : buffered s with
    | unassigned op =>
      rw [step_eq_fetch_of_unassigned hrun hb, ← fetch_mapQueues]
      exact step_eq_fetch_of_unassigned (s := mapQueues g k s) hrun hb
    | instr i =>
      have hexec : exec i (mapQueues g k s.clearOutputWasWritten) =
          mapNext (mapQueues g k) (exec i s.clearOutputWasWritten) :=
        exec_mapQueues (fun hi => hread (hi ▸ hb)) hwrite
      rw [step_eq_exec_fetch hrun hb]
      refine (step_eq_exec_fetch (s := mapQueues g k s) hrun hb).trans ((congrArg (andThen · fetch) hexec).trans ?_)
      cases exec i s.clearOutputWasWritten with
      | next u => exact fetch_mapQueues u
      | fault e => rfl
      | refused e => rfl

end MapQueues

/-! ### Later input -/

theorem keepsHead_append {p : List Int} (hp : p ≠ []) (v : Int) : KeepsHead (· ++ [v]) p := by
  obtain ⟨w, rest, rfl⟩ := List.exists_cons_of_ne_nil hp
  exact ⟨rfl, rfl⟩

/-- Settles O50: a queue that READ finds non-empty keeps its head when input is added. -/
theorem laterInputDoesNotDisturbATick : Obligations.LaterInputDoesNotDisturbATick := by
  unfold Obligations.LaterInputDoesNotDisturbATick
  intro s v h
  exact step_mapQueues (g := (· ++ [v])) (k := id)
    (fun hread => keepsHead_append (h.resolve_right (absurd hread)) v) fun _ => rfl

/-! ### The start modes -/

theorem coreRun_succ (M : Host.Core) {s t : M.State} (h : M.step s = .next t) (n : Nat) :
    M.run (n + 1) s = M.run n t := by
  rw [Host.Core.run, h]

/-- The bubble is a NOP, and its tick is the refill that the prefetching reset ends with (92_eei_decisions.md D3). -/
theorem step_bubble (s : State) (inputs : List Int) :
    step (pushInputs inputs (hostReset .bubble s)) = .next (pushInputs inputs (hostReset .resetPrefetch s)) :=
  (step_of_nop (s := pushInputs inputs (hostReset .bubble s)) rfl rfl (clearForReset_pc_lt s)).trans
    (congrArg _ (refill_mapQueues (g := (· ++ inputs)) (k := id) (clearForReset s)))

/-- Settles O48: the first tick in bubble mode is the prefetch. -/
theorem startModesGiveTheSameRun : Obligations.StartModesGiveTheSameRun :=
  fun s inputs => ⟨step_bubble s inputs, coreRun_succ Sys2Proof.core (step_bubble s inputs)⟩

/-! ### The draining harness -/

/-- The state with the outputs `q` put back before those in the queue. -/
def prependOutput (q : List Nat) (s : State) : State := mapQueues id (q ++ ·) s

/-- Output popped earlier does not change the run: it stands at the head of what the run's output queue would be. -/
theorem ticks_prependOutput (n : Nat) (q : List Nat) (s : State) :
    ticks n (prependOutput q s) = mapNext (prependOutput q) (ticks n s) := by
  induction n generalizing s with
  | zero => rfl
  | succ n ih =>
    have hstep : step (prependOutput q s) = mapNext (prependOutput q) (step s) :=
      step_mapQueues (fun _ => ⟨rfl, rfl⟩) fun a => (List.append_assoc q s.outQ [a]).symm
    rw [ticks, ticks, hstep]
    cases step s with
    | next u => exact ih u
    | fault e => rfl
    | refused e => rfl

theorem prependOutput_popOutput (s : State) : prependOutput (popOutput s).1.toList (popOutput s).2 = s := by
  cases s with
  | mk cfg regA regB pc mem ir opnd overflow halted faulted outputWasWritten inQ outQ => cases outQ <;> rfl

/-- After a turn that goes on, the state and what the turn popped make up the state after the tick
(70_reset_and_hazards.md R130). -/
theorem harnessTurn_of_next {s v : State} (h : step s = .next v) (popped : List Nat) :
    ∃ q w, harnessTurn s popped = .next (w, popped ++ q) ∧ v = prependOutput q w := by
  by_cases hout : v.outputWasWritten = true
  · exact ⟨_, _, by simp [harnessTurn, h, hout], (prependOutput_popOutput v).symm⟩
  · exact ⟨[], v, by simp [harnessTurn, h, hout], rfl⟩

theorem harnessRun_of_next {n : Nat} {s t : State} {popped : List Nat} (h : ticks n s = .next t) :
    ∃ u q, harnessRun n s popped = .next (u, q) ∧ t = { u with outQ := t.outQ } ∧ q ++ u.outQ = popped ++ t.outQ := by
  induction n generalizing s t popped with
  | zero =>
    cases h
    exact ⟨s, popped, rfl, rfl, rfl⟩
  | succ n ih =>
    cases hrun : s.halted with
    | true =>
      obtain rfl : s = t := Host.Outcome.next.inj ((ticks_of_halted hrun _).symm.trans h)
      exact ⟨s, popped, harnessRun_of_halted hrun _ _, rfl, rfl⟩
    | false =>
      obtain ⟨v, hv, ht⟩ := andThen_eq_next h
      obtain ⟨q, w, hturn, rfl⟩ := harnessTurn_of_next hv popped
      rw [ticks_prependOutput] at ht
      obtain ⟨t', ht', htt⟩ := andThen_eq_next ht
      cases htt
      obtain ⟨u, q', hu, heq, hout⟩ := ih (popped := popped ++ q) ht'
      refine ⟨u, q', by simp [harnessRun, isHalted, hrun, hturn, hu], ?_, ?_⟩
      · exact congrArg (prependOutput q) heq
      · simpa [prependOutput, mapQueues] using hout

theorem harnessRun_of_fault {n : Nat} {s : State} {f : Fault} {popped : List Nat} (h : ticks n s = .fault f) :
    harnessRun n s popped = .fault f := by
  induction n generalizing s popped with
  | zero => cases h
  | succ n ih =>
    cases hrun : s.halted with
    | true => simp [ticks_of_halted hrun] at h
    | false =>
      rw [ticks] at h
      cases hv : step s with
      | next v =>
        obtain ⟨q, w, hturn, rfl⟩ := harnessTurn_of_next hv popped
        rw [hv, andThen_next, ticks_prependOutput] at h
        have hw : ticks n w = .fault f := by
          cases hw : ticks n w with
          | next u => simp [hw] at h
          | fault e => simpa [hw] using h
          | refused e => simp [hw, mapNext] at h
        simp [harnessRun, isHalted, hrun, hturn, ih hw]
      | fault e =>
        rw [hv] at h
        cases h
        simp [harnessRun, isHalted, hrun, harnessTurn, hv]
      | refused e => simp [hv] at h

/-- Settles O49: a turn splits the tick's output, and what was popped commutes with the ticks that follow. -/
theorem drainingHarnessLosesNoOutput : Obligations.DrainingHarnessLosesNoOutput :=
  fun _ _ _ => ⟨fun _ => harnessRun_of_next, fun _ => harnessRun_of_fault⟩

end Sys2Proof.Machine

/-! ## The assembler's lines (48_assembler.md sections 5 and 6)

Emitting bytes as equations on either side of the limit, and then the lines: a mnemonic line goes to its row of the
InstructionTable, a label line to the label table. -/

namespace Sys2Proof.Machine

/-! ### Emitting bytes -/

theorem emit_of_lt {memsize : Nat} {st : AsmState} (hp : st.phase = .pass1) (h : st.buf.length < memsize) (b : Byte) :
    emit memsize st b = { st with buf := st.buf ++ [b] } := by
  rw [emit, inPass1_pos hp, if_neg (not_le.mpr h)]

theorem emit_of_le {memsize : Nat} {st : AsmState} (hp : st.phase = .pass1) (h : memsize ≤ st.buf.length) (b : Byte) :
    emit memsize st b = st.fail .programTooLarge := by
  rw [emit, inPass1_pos hp, if_pos h]

theorem emitAll_of_le {memsize : Nat} {bs : List Byte} {st : AsmState} (hp : st.phase = .pass1)
    (h : st.buf.length + bs.length ≤ memsize) : emitAll memsize bs st = { st with buf := st.buf ++ bs } := by
  obtain ⟨-, hemit⟩ | ⟨hlt, -⟩ := emitAll_pass1 memsize bs hp (by omega)
  · exact hemit
  · omega

/-- Bytes that do not fit fail the pass at its line, also where the buffer is already beyond the limit. -/
theorem emitAll_phase_of_lt {memsize : Nat} {bs : List Byte} {st : AsmState} (hp : st.phase = .pass1) (hne : bs ≠ [])
    (h : memsize < st.buf.length + bs.length) :
    (emitAll memsize bs st).phase = .failed .programTooLarge st.lineNo := by
  obtain hlen | hlen := le_or_gt st.buf.length memsize
  · obtain ⟨hle, -⟩ | ⟨-, hfail⟩ := emitAll_pass1 memsize bs hp hlen
    · omega
    · exact hfail
  · obtain ⟨b, bs, rfl⟩ := List.exists_cons_of_ne_nil hne
    have hfirst : emitAll memsize (b :: bs) st = emitAll memsize bs (st.fail .programTooLarge) := by
      rw [← emit_of_le hp hlen.le b]
      rfl
    rw [hfirst, emitAll_not_pass1 memsize bs (by simp [AsmState.fail])]
    rfl

theorem addPatch_of_pass1 {st : AsmState} (hp : st.phase = .pass1) (name : List Char) :
    addPatch name st = { st with patches := st.patches ++ [⟨name, st.buf.length, st.lineNo⟩] } :=
  inPass1_pos hp _

/-- A label reference is emitted like two bytes, and a patch for the second is recorded (48_assembler.md R106). -/
theorem emit_labelRef_of_le {memsize : Nat} {st : AsmState} (hp : st.phase = .pass1)
    (h : st.buf.length + 2 ≤ memsize) (opcode : Byte) (name : List Char) :
    emit memsize (addPatch name (emit memsize st opcode)) 0x00 =
      { st with
        buf := st.buf ++ [opcode, 0]
        patches := st.patches ++ [⟨name, st.buf.length + 1, st.lineNo⟩] } := by
  have hroom : (st.buf ++ [opcode]).length < memsize := by
    simp only [List.length_append, List.length_singleton]
    omega
  rw [emit_of_lt hp (by omega), addPatch_of_pass1 (by exact hp), emit_of_lt (by exact hp) (by exact hroom)]
  simp

theorem emit_labelRef_phase_of_lt {memsize : Nat} {st : AsmState} (hp : st.phase = .pass1)
    (h : memsize < st.buf.length + 2) (opcode : Byte) (name : List Char) :
    (emit memsize (addPatch name (emit memsize st opcode)) 0x00).phase = .failed .programTooLarge st.lineNo := by
  obtain hlt | hle := lt_or_ge st.buf.length memsize
  · have hfull : memsize ≤ (st.buf ++ [opcode]).length := by
      simp only [List.length_append, List.length_singleton]
      omega
    rw [emit_of_lt hp hlt, addPatch_of_pass1 (by exact hp), emit_of_le (by exact hp) (by exact hfull)]
    rfl
  · have hfailed : (st.fail .programTooLarge).phase ≠ .pass1 := by simp [AsmState.fail]
    rw [emit_of_le hp hle, addPatch, inPass1_neg hfailed, emit, inPass1_neg hfailed]
    rfl

/-! ### Mnemonic lines -/

/-- A mnemonic begins no comment, ends in no colon and is no directive's keyword (48_assembler.md R102). -/
theorem mnemonic_text_shape (m : Mnemonic) : m.text.toList.head? ≠ some '#' ∧ m.text.toList.getLast? ≠ some ':' ∧
    m.text.toList ≠ "STR".toList ∧ m.text.toList ≠ "HEX".toList := by
  cases m <;> decide

theorem labelName?_eq_none_of_last {kw : List Char} (h : kw.getLast? ≠ some ':') : labelName? kw = none :=
  if_neg fun hkw => h hkw.1

theorem lookupMnemonic_of_upper {kw : List Char} {row : TableRow} (hk : asciiWord kw = true)
    (hrow : row ∈ instructionTable) (hkw : kw.map Char.toUpper = row.mnemonic.text.toList) :
    lookupMnemonic kw = some row :=
  lookupMnemonic_eq_some_iff.mpr ⟨hrow, by rw [upperText_ascii fun c hc => (asciiWord_mem hk hc).1, hkw]⟩

/-- A line whose first word is a mnemonic in any case is assembled as its row's instruction (48_assembler.md R106). -/
theorem assembleLine_of_mnemonic {memsize : Nat} {st : AsmState} {kw : List Char} {ops : List (List Char)}
    {row : TableRow} (hp : st.phase = .pass1) (hk : asciiWord kw = true) (ho : ∀ op ∈ ops, asciiWord op = true)
    (hrow : row ∈ instructionTable) (hkw : kw.map Char.toUpper = row.mnemonic.text.toList) :
    assembleLine memsize st (lineText (kw :: ops)) =
      if hasOperand row.opcode then assembleFormatI memsize row.opcode ops { st with lineNo := st.lineNo + 1 }
      else if ops = [] then emit memsize { st with lineNo := st.lineNo + 1 } row.opcode
      else failedLine .malformedOperand st := by
  obtain ⟨hhead, hlast, hstr, hhex⟩ := mnemonic_text_shape row.mnemonic
  rw [← hkw] at hhead hlast hstr hhex
  have hhead' : kw.head? ≠ some '#' := fun h => hhead (by rw [List.head?_map, h]; rfl)
  have hlast' : kw.getLast? ≠ some ':' := fun h => hlast (by rw [List.getLast?_map, h]; rfl)
  rw [assembleLine_lineText memsize hp hk ho hhead' hstr hhex fun _ => labelName?_eq_none_of_last hlast',
    assembleInstruction, lookupMnemonic_of_upper hk hrow hkw]
  rfl

/-! ### Operands -/

theorem operandForm_labelRef {name : List Char} (hne : name ≠ []) (hcolon : ':' ∉ name) :
    operandForm (':' :: name) = .labelRef (lowerText name) := by
  simp [operandForm, hne, hcolon]

theorem operandForm_value {hi lo : Char} {b : Byte} (h : hexByte? hi lo = some b) : operandForm [hi, lo] = .value b := by
  have hne : hi ≠ ':' := by
    rintro rfl
    simp [hexByte?, show hexDigit? ':' = none from by decide] at h
  unfold operandForm
  split
  · next heq => exact absurd (List.cons.inj heq).1 hne
  · next heq =>
    cases heq
    rw [h]
  · next hpair => exact absurd rfl (hpair hi lo)

theorem operandForm_malformed {op : List Char} (hlabel : ∀ name, op = ':' :: name → name = [] ∨ ':' ∈ name)
    (hvalue : ∀ hi lo, op = [hi, lo] → hexByte? hi lo = none) : operandForm op = .malformed := by
  unfold operandForm
  split
  · next name => exact if_pos (hlabel name rfl)
  · next hi lo _ => rw [hvalue hi lo rfl]
  · rfl

/-- A first word that is no mnemonic makes no instruction (48_assembler.md R106). -/
theorem lookupMnemonic_eq_none {kw : List Char} (hk : asciiWord kw = true)
    (h : ∀ row ∈ instructionTable, kw.map Char.toUpper ≠ row.mnemonic.text.toList) : lookupMnemonic kw = none := by
  rw [Option.eq_none_iff_forall_ne_some]
  intro row hrow
  obtain ⟨hmem, htext⟩ := lookupMnemonic_eq_some_iff.mp hrow
  rw [upperText_ascii fun c hc => (asciiWord_mem hk hc).1] at htext
  exact h row hmem htext.symm

/-- A word that ends in a colon names a label unless its name is empty or holds a colon (48_assembler.md R102). -/
theorem labelName?_eq_none {kw : List Char} (h : ∀ name, kw = name ++ [':'] → name = [] ∨ ':' ∈ name) :
    labelName? kw = none := by
  refine if_neg ?_
  rintro ⟨hlast, hne, hcolon⟩
  obtain hnil | hmem := h kw.dropLast (List.dropLast_append_getLast? _ hlast).symm
  · exact hne hnil
  · exact hcolon hmem

/-- Settles O59: the outcomes of R106, row by row and operand form by operand form. -/
theorem labelReferenceEmitsAPlaceholder : Obligations.LabelReferenceEmitsAPlaceholder := by
  unfold Obligations.LabelReferenceEmitsAPlaceholder
  intro memsize st kw ops hp hk ho
  have hp' : ({ st with lineNo := st.lineNo + 1 } : AsmState).phase = .pass1 := hp
  refine ⟨?formatI, ?formatN, ?unknown⟩
  case formatI =>
    intro row hrow hkw
    obtain ⟨hmem, hoperand⟩ := mem_instructionTable_of_formatI hrow
    rw [assembleLine_of_mnemonic hp hk ho hmem hkw, if_pos hoperand]
    refine ⟨?labelRef, ?value, ?missing, ?malformed, ?tooMany⟩
    case labelRef =>
      rintro name rfl hne hcolon
      have hword : asciiWord (':' :: name) = true := ho _ (List.mem_singleton_self _)
      have hascii : ∀ c ∈ name, isAscii c = true := fun c hc => (asciiWord_mem hword (List.mem_cons_of_mem _ hc)).1
      simp only [assembleFormatI, operandForm_labelRef hne hcolon, lowerText_ascii hascii]
      exact ⟨fun h => emit_labelRef_of_le hp' h _ _, fun h => emit_labelRef_phase_of_lt hp' h _ _⟩
    case value =>
      rintro hi lo b rfl hb
      simp only [assembleFormatI, operandForm_value hb]
      exact ⟨fun h => emitAll_of_le hp' h, fun h => emitAll_phase_of_lt hp' (by simp) h⟩
    case missing =>
      rintro rfl
      rfl
    case malformed =>
      rintro op rfl hlabel hvalue
      simp only [assembleFormatI, operandForm_malformed hlabel hvalue]
      rfl
    case tooMany =>
      intro hlen
      match ops, hlen with
      | _ :: _ :: _, _ => rfl
  case formatN =>
    intro row hrow hkw
    obtain ⟨hmem, hoperand⟩ := mem_instructionTable_of_formatN hrow
    rw [assembleLine_of_mnemonic hp hk ho hmem hkw, hoperand, if_neg Bool.false_ne_true]
    refine ⟨fun hops h => ?_, fun hops h => ?_, fun hops => if_neg hops⟩
    · rw [if_pos hops]
      exact emit_of_lt hp' h _
    · rw [if_pos hops]
      exact emit_of_le hp' (Nat.lt_succ_iff.mp h) _
  case unknown =>
    intro hnone hstr hhex hhead hlabel
    rw [assembleLine_lineText memsize hp hk ho hhead hstr hhex fun hops => labelName?_eq_none (hlabel hops),
      assembleInstruction, lookupMnemonic_eq_none hk hnone]
    rfl

/-! ### Label definitions -/

theorem labelName?_append {name : List Char} (hne : name ≠ []) (hcolon : ':' ∉ name) :
    labelName? (name ++ [':']) = some name := by
  simp [labelName?, hne, hcolon]

/-- A word that ends in a colon is no directive's keyword. -/
theorem upperText_append_colon_ne {name t : List Char} (ht : t.getLast? ≠ some ':') :
    upperText (name ++ [':']) ≠ t := by
  rintro rfl
  simp [upperText, isAscii] at ht

/-- A word with a colon at its end and none before is a label definition (48_assembler.md R102). -/
theorem classify_label {name : List Char} (hw : asciiWord (name ++ [':']) = true) (hne : name ≠ [])
    (hhead : name.head? ≠ some '#') (hcolon : ':' ∉ name) : classify (name ++ [':']) = .label name := by
  have htrim : trimText (name ++ [':']) = name ++ [':'] :=
    trimText_lineText (ws := [name ++ [':']]) (List.forall_mem_singleton.mpr hw)
  have hfirst : firstWord (name ++ [':']) = name ++ [':'] := firstWord_lineText [] hw
  have hafter : afterFirstWord (name ++ [':']) = [] := afterFirstWord_lineText (ops := []) hw (by simp)
  have hhead' : (name ++ [':']).head? ≠ some '#' := by rwa [List.head?_append_of_ne_nil _ hne]
  simp only [classify, htrim, hfirst, hafter, labelName?_append hne hcolon, if_true]
  rw [if_neg (by simp), if_neg hhead', if_neg (upperText_append_colon_ne (by decide)),
    if_neg (upperText_append_colon_ne (by decide))]

/-- In pass 1 such a line defines its label (48_assembler.md R105). -/
theorem assembleLine_label {memsize : Nat} {st : AsmState} {name : List Char} (hp : st.phase = .pass1) (hne : name ≠ [])
    (hhead : name.head? ≠ some '#') (hname : ∀ c ∈ name, isAscii c = true ∧ isBlank c = false ∧ c ≠ ':') :
    assembleLine memsize st (name ++ [':']) = defineLabel name { st with lineNo := st.lineNo + 1 } := by
  have hw : asciiWord (name ++ [':']) = true := by
    simp only [asciiWord, Bool.and_eq_true, List.all_eq_true, List.forall_mem_append, List.forall_mem_singleton]
    refine ⟨by simp, fun c hc => ?_, by decide⟩
    obtain ⟨hascii, hblank, -⟩ := hname c hc
    simp [hascii, hblank]
  have hcolon : ':' ∉ name := by
    intro hmem
    obtain ⟨-, -, hne⟩ := hname ':' hmem
    exact hne rfl
  have hline : dropFinalCr (name ++ [':']) = name ++ [':'] :=
    dropFinalCr_lineText (ws := [name ++ [':']]) (List.forall_mem_singleton.mpr hw)
  rw [assembleLine, inPass1_pos hp, hline, classify_label hw hne hhead hcolon]
  rfl

/-- Settles O58: the definition of a label under its lower-cased name, by whether it has one already. -/
theorem labelsAreWriteOnce : Obligations.LabelsAreWriteOnce := by
  unfold Obligations.LabelsAreWriteOnce
  intro memsize st name hp hne hhead hname
  rw [assembleLine_label hp hne hhead hname, defineLabel, lowerText_ascii fun c hc => (hname c hc).1]
  constructor
  · intro hnew
    rw [hnew]
  · intro v hv
    rw [hv]
    rfl

/-- Settles O56: the example's text, evaluated. -/
theorem workedLabelExampleAssembles : Obligations.WorkedLabelExampleAssembles := by
  unfold Obligations.WorkedLabelExampleAssembles
  decide +kernel

end Sys2Proof.Machine

/-! ## The assembler's two passes (48_assembler.md sections 2 and 7)

What a line that leaves pass 1 going can have done, the invariant of pass 1 that follows, and what resolution does to a
buffer whose patches lie apart. -/

namespace Sys2Proof.Machine

/-! ### Pass 1 -/

/-- What a line that leaves pass 1 going did: it emitted bytes that fit, defined a label at the end of the buffer, or
emitted an opcode and a placeholder that fit, with the placeholder's patch (48_assembler.md R102 to R106). -/
inductive LineEffect (memsize : Nat) (st : AsmState) : AsmState → Prop where
  | emitted (bs : List Byte) (hfit : st.buf.length + bs.length ≤ memsize) :
      LineEffect memsize st { st with buf := st.buf ++ bs }
  | defined (name : List Char) : LineEffect memsize st { st with labels := st.labels ++ [(name, st.buf.length)] }
  | referred (opcode : Byte) (name : List Char) (hfit : st.buf.length + 2 ≤ memsize) :
      LineEffect memsize st
        { st with
          buf := st.buf ++ [opcode, 0]
          patches := st.patches ++ [⟨name, st.buf.length + 1, st.lineNo⟩] }

section LineEffects

variable {memsize : Nat} {st : AsmState}

/-- A refused line ends pass 1. -/
theorem effect_of_fail {t : AsmState} {k : AsmErrorKind} (h : (st.fail k).phase = .pass1) :
    LineEffect memsize st t := by
  cases h

theorem emitAll_effect (hp : st.phase = .pass1) (hlen : st.buf.length ≤ memsize) {bs : List Byte}
    (h : (emitAll memsize bs st).phase = .pass1) : LineEffect memsize st (emitAll memsize bs st) := by
  obtain ⟨hfit, heq⟩ | ⟨-, hfail⟩ := emitAll_pass1 memsize bs hp hlen
  · rw [heq]
    exact .emitted bs hfit
  · simp [h] at hfail

theorem assembleFormatI_effect (hp : st.phase = .pass1) (hlen : st.buf.length ≤ memsize) {opcode : Byte}
    {ops : List (List Char)} (h : (assembleFormatI memsize opcode ops st).phase = .pass1) :
    LineEffect memsize st (assembleFormatI memsize opcode ops st) := by
  unfold assembleFormatI at h ⊢
  split at h
  · exact effect_of_fail h
  · split at h
    · exact emitAll_effect hp hlen h
    · next name _ =>
      obtain hfit | hfull := le_or_gt (st.buf.length + 2) memsize
      · rw [emit_labelRef_of_le hp hfit]
        exact .referred opcode name hfit
      · rw [emit_labelRef_phase_of_lt hp hfull] at h
        cases h
    · exact effect_of_fail h
  · exact effect_of_fail h

theorem assembleInstruction_effect (hp : st.phase = .pass1) (hlen : st.buf.length ≤ memsize) {kw : List Char}
    {ops : List (List Char)} (h : (assembleInstruction memsize kw ops st).phase = .pass1) :
    LineEffect memsize st (assembleInstruction memsize kw ops st) := by
  unfold assembleInstruction at h ⊢
  split at h
  · exact effect_of_fail h
  · next row _ =>
    split at h
    · next hop =>
      simp only [hop, if_true]
      exact assembleFormatI_effect hp hlen h
    · next hop =>
      simp only [hop, Bool.false_eq_true, if_false]
      split at h
      · next hops =>
        simp only [hops, if_true]
        exact emitAll_effect (bs := [row.opcode]) hp hlen h
      · exact effect_of_fail h

theorem assembleForm_effect (hp : st.phase = .pass1) (hlen : st.buf.length ≤ memsize) {form : LineForm}
    (h : (assembleForm memsize form st).phase = .pass1) : LineEffect memsize st (assembleForm memsize form st) := by
  cases form with
  | ignored => exact emitAll_effect (bs := []) hp hlen h
  | str text | hex rest =>
    unfold assembleForm at h ⊢
    dsimp only at h ⊢
    split at h
    · exact emitAll_effect hp hlen h
    · exact effect_of_fail h
  | label name =>
    simp only [assembleForm, defineLabel] at h ⊢
    split at h
    · exact effect_of_fail h
    · exact .defined (lowerText name)
  | instruction kw ops => exact assembleInstruction_effect hp hlen h

end LineEffects

/-- What pass 1 keeps while it goes on: the buffer fits, labels lie within it or at its end, and each patch is for a byte
of it, the patches in rising order (48_assembler.md R101, R105, R106). -/
structure Pass1Inv (memsize : Nat) (st : AsmState) : Prop where
  /-- the buffer fits the machine -/
  fits : st.buf.length ≤ memsize
  /-- no label lies beyond the end of the buffer -/
  labels_le : ∀ l ∈ st.labels, l.2 ≤ st.buf.length
  /-- every patch is for a byte of the buffer -/
  patches_lt : ∀ p ∈ st.patches, p.offset < st.buf.length
  /-- no two patches are for one byte -/
  patches_rising : st.patches.Pairwise fun p q => p.offset < q.offset

theorem lineEffect_keeps_inv {memsize : Nat} {st t : AsmState} (hinv : Pass1Inv memsize st)
    (h : LineEffect memsize st t) : Pass1Inv memsize t := by
  obtain ⟨hfits, hlabels, hpatches, hrising⟩ := hinv
  cases h with
  | emitted bs hfit =>
    exact ⟨by simpa using hfit, fun l hl => (hlabels l hl).trans (by simp),
      fun p hp => (hpatches p hp).trans_le (by simp), hrising⟩
  | defined name =>
    refine ⟨hfits, ?_, hpatches, hrising⟩
    simpa [or_imp, forall_and] using hlabels
  | referred opcode name hfit =>
    refine ⟨by simpa using hfit, fun l hl => (hlabels l hl).trans (by simp), ?_, ?_⟩
    · simp only [List.forall_mem_append, List.forall_mem_singleton, List.length_append, List.length_cons,
        List.length_nil]
      exact ⟨fun p hp => (hpatches p hp).trans_le (by omega), by omega⟩
    · refine List.pairwise_append.mpr ⟨hrising, List.pairwise_singleton _ _, fun p hp q hq => ?_⟩
      obtain rfl := List.mem_singleton.mp hq
      exact (hpatches p hp).trans_le (Nat.le_succ _)

theorem assembleLine_keeps_inv {memsize : Nat} {st : AsmState} (hinv : st.phase = .pass1 → Pass1Inv memsize st)
    (line : List Char) (h : (assembleLine memsize st line).phase = .pass1) :
    Pass1Inv memsize (assembleLine memsize st line) := by
  by_cases hp : st.phase = .pass1
  · obtain ⟨hfits, hlabels, hpatches, hrising⟩ := hinv hp
    rw [assembleLine, inPass1_pos hp] at h ⊢
    refine lineEffect_keeps_inv (st := { st with lineNo := st.lineNo + 1 }) ⟨hfits, hlabels, hpatches, hrising⟩ ?_
    exact assembleForm_effect (st := { st with lineNo := st.lineNo + 1 }) hp hfits h
  · rw [assembleLine, inPass1_neg hp] at h
    exact absurd h hp

theorem assembleLines_keep_inv {memsize : Nat} (lines : List (List Char)) {st : AsmState}
    (hinv : st.phase = .pass1 → Pass1Inv memsize st) (h : (lines.foldl (assembleLine memsize) st).phase = .pass1) :
    Pass1Inv memsize (lines.foldl (assembleLine memsize) st) := by
  induction lines generalizing st with
  | nil => exact hinv h
  | cons line lines ih => exact ih (assembleLine_keeps_inv hinv line) h

/-! ### Resolution -/

/-- A patch changes one byte of the buffer and the phase at most (48_assembler.md R108). -/
theorem applyPatch_frame (st : AsmState) (p : Patch) :
    (applyPatch st p).labels = st.labels ∧ (applyPatch st p).patches = st.patches ∧
      (applyPatch st p).buf.length = st.buf.length := by
  unfold applyPatch
  split
  · split
    · exact ⟨rfl, rfl, rfl⟩
    · split
      · exact ⟨rfl, rfl, rfl⟩
      · exact ⟨rfl, rfl, List.length_set⟩
  · exact ⟨rfl, rfl, rfl⟩

theorem applyPatches_frame (ps : List Patch) (st : AsmState) :
    (ps.foldl applyPatch st).labels = st.labels ∧ (ps.foldl applyPatch st).patches = st.patches ∧
      (ps.foldl applyPatch st).buf.length = st.buf.length := by
  induction ps generalizing st with
  | nil => exact ⟨rfl, rfl, rfl⟩
  | cons p ps ih =>
    obtain ⟨hlabels, hpatches, hlen⟩ := applyPatch_frame st p
    obtain ⟨hlabels', hpatches', hlen'⟩ := ih (applyPatch st p)
    exact ⟨hlabels'.trans hlabels, hpatches'.trans hpatches, hlen'.trans hlen⟩

/-- A patch that leaves resolution going has filled its byte with its label's offset (48_assembler.md R108, R109). -/
theorem applyPatch_eq_of_resolving {st : AsmState} {p : Patch} (h : (applyPatch st p).phase = .resolving) :
    ∃ v, labelOffset? st.labels p.name = some v ∧ v ≤ 255 ∧
      applyPatch st p = { st with buf := st.buf.set p.offset (BitVec.ofNat 8 v) } := by
  unfold applyPatch at h ⊢
  split at h
  · next hres =>
    split at h
    · cases h
    · next v hv =>
      split at h
      · cases h
      · next hle => exact ⟨v, hv, not_lt.mp hle, by simp [hres, hle]⟩
  · next hres => exact absurd h hres

/-- A patch outside the resolving phase does nothing. -/
theorem applyPatches_of_not_resolving (ps : List Patch) {st : AsmState} (h : st.phase ≠ .resolving) :
    ps.foldl applyPatch st = st := by
  induction ps with
  | nil => rfl
  | cons p ps ih =>
    have hp : applyPatch st p = st := if_neg h
    rw [List.foldl_cons, hp, ih]

/-- Patches leave the bytes at other offsets as they are. -/
theorem applyPatches_getElem?_of_ne (ps : List Patch) {st : AsmState} {k : Nat} (h : ∀ p ∈ ps, p.offset ≠ k) :
    (ps.foldl applyPatch st).buf[k]? = st.buf[k]? := by
  induction ps generalizing st with
  | nil => rfl
  | cons p ps ih =>
    obtain ⟨hp, hps⟩ := List.forall_mem_cons.mp h
    rw [List.foldl_cons, ih hps]
    unfold applyPatch
    split
    · split
      · rfl
      · split
        · rfl
        · exact List.getElem?_set_ne hp
    · rfl

/-- Patches at rising offsets of the buffer: if resolution goes on to their end, each has a label, whose offset its byte
holds (48_assembler.md R108, R109). -/
theorem applyPatches_fill {ps : List Patch} {st : AsmState} (hlt : ∀ p ∈ ps, p.offset < st.buf.length)
    (hrising : ps.Pairwise fun p q => p.offset < q.offset) (h : (ps.foldl applyPatch st).phase = .resolving) :
    ∀ p ∈ ps, ∃ v, labelOffset? st.labels p.name = some v ∧ v ≤ 255 ∧
      (ps.foldl applyPatch st).buf[p.offset]? = some (BitVec.ofNat 8 v) := by
  induction ps generalizing st with
  | nil => simp
  | cons p ps ih =>
    obtain ⟨hafter, hrising'⟩ := List.pairwise_cons.mp hrising
    obtain ⟨hp, hps⟩ := List.forall_mem_cons.mp hlt
    have hres : (applyPatch st p).phase = .resolving := by
      by_contra hne
      rw [List.foldl_cons, applyPatches_of_not_resolving ps hne] at h
      exact hne h
    obtain ⟨v, hv, hle, heq⟩ := applyPatch_eq_of_resolving hres
    obtain ⟨hlabels, -, hlen⟩ := applyPatch_frame st p
    refine List.forall_mem_cons.mpr ⟨⟨v, hv, hle, ?_⟩, ?_⟩
    · rw [List.foldl_cons, applyPatches_getElem?_of_ne ps fun q hq => (hafter q hq).ne', heq]
      exact List.getElem?_set_self hp
    · rw [← hlabels]
      exact ih (fun q hq => hlen.symm ▸ hps q hq) hrising' h

/-! ### A text that assembles -/

/-- The state after pass 1 over a text (48_assembler.md R98, R100). -/
def pass1State (memsize : Nat) (source : List Char) : AsmState :=
  (sourceLines source).foldl (assembleLine memsize) AsmState.init

/-- The state before the patches are applied. -/
def startResolving (st : AsmState) : AsmState := { st with phase := .resolving }

theorem assembleState_eq (memsize : Nat) (source : List Char) :
    assembleState memsize source = resolve (endOfText (pass1State memsize source)) := rfl

/-- A pass 1 that fails is the assembler's last state (48_assembler.md R100). -/
theorem assembleState_of_failed {memsize : Nat} {source : List Char} {k : AsmErrorKind} {l : Nat}
    (h : (pass1State memsize source).phase = .failed k l) : assembleState memsize source = pass1State memsize source := by
  have hend : endOfText (pass1State memsize source) = pass1State memsize source := inPass1_neg (by simp [h]) _
  rw [assembleState_eq, hend, resolve, applyPatches_of_not_resolving _ (by simp [h])]
  exact if_neg (by simp [h])

theorem assembleState_of_pass1 {memsize : Nat} {source : List Char} (h : (pass1State memsize source).phase = .pass1) :
    assembleState memsize source = resolve (startResolving (pass1State memsize source)) := by
  rw [assembleState_eq]
  exact congrArg resolve (inPass1_pos h _)

theorem assembleText_of_failed {memsize : Nat} {source : List Char} {k : AsmErrorKind} {l : Nat}
    (h : (assembleState memsize source).phase = .failed k l) : assembleText memsize source = .error ⟨k, l⟩ := by
  simp [assembleText, h]

theorem assembleText_of_done {memsize : Nat} {source : List Char} (h : (assembleState memsize source).phase = .done) :
    assembleText memsize source = .ok (assembleState memsize source).buf := by
  simp [assembleText, h]

theorem pass1State_inv {memsize : Nat} {source : List Char} (h : (pass1State memsize source).phase = .pass1) :
    Pass1Inv memsize (pass1State memsize source) :=
  assembleLines_keep_inv _ (fun _ => ⟨Nat.zero_le _, nofun, nofun, List.Pairwise.nil⟩) h

/-- Only a pass 1 that did not fail comes to an end of resolution. -/
theorem pass1State_phase_of_done {memsize : Nat} {source : List Char}
    (h : (assembleState memsize source).phase = .done) : (pass1State memsize source).phase = .pass1 := by
  obtain hpass | ⟨k, l, hfail⟩ :=
    assembleLines_inOrFailed memsize (sourceLines source) (st := AsmState.init) (.inl rfl)
  · exact hpass
  · rw [assembleState_of_failed hfail, pass1State, hfail] at h
    cases h

/-- Resolution that ends in `Done` went through all the patches (48_assembler.md R100). -/
theorem resolve_of_done {st : AsmState} (hst : st.phase = .resolving) (h : (resolve st).phase = .done) :
    (st.patches.foldl applyPatch st).phase = .resolving ∧
      resolve st = { st.patches.foldl applyPatch st with phase := .done } := by
  obtain hres | ⟨k, l, hfail⟩ := applyPatches_phase st.patches (.inl hst)
  · exact ⟨hres, if_pos hres⟩
  · have hstop : resolve st = st.patches.foldl applyPatch st := if_neg (by simp [hfail])
    rw [hstop, hfail] at h
    cases h

/-- A text that assembles went through pass 1, and then through all its patches (48_assembler.md R98, R100). -/
theorem assembleText_eq_ok {memsize : Nat} {source : List Char} {bytes : List Byte}
    (h : assembleText memsize source = .ok bytes) :
    ∃ st, Pass1Inv memsize st ∧ (st.patches.foldl applyPatch st).phase = .resolving ∧
      assembleState memsize source = { st.patches.foldl applyPatch st with phase := .done } ∧
      bytes = (st.patches.foldl applyPatch st).buf := by
  obtain hdone | ⟨k, l, hfailed⟩ := assembleState_terminal memsize source
  · have hpass := pass1State_phase_of_done hdone
    obtain ⟨hfits, hlabels, hpatches, hrising⟩ := pass1State_inv hpass
    have hstate := assembleState_of_pass1 hpass
    obtain ⟨hres, hresolve⟩ := resolve_of_done rfl (hstate ▸ hdone)
    rw [assembleText_of_done hdone, hstate, hresolve] at h
    exact ⟨startResolving (pass1State memsize source), ⟨hfits, hlabels, hpatches, hrising⟩, hres,
      hstate.trans hresolve, (Except.ok.inj h).symm⟩
  · rw [assembleText_of_failed hfailed] at h
    cases h

/-- Settles O54: pass 1 fits the machine, and patches replace bytes in place. -/
theorem assembledTextFitsTheMachine : Obligations.AssembledTextFitsTheMachine := by
  unfold Obligations.AssembledTextFitsTheMachine
  intro memsize source bytes h
  obtain ⟨st, hinv, -, -, rfl⟩ := assembleText_eq_ok h
  obtain ⟨-, -, hlen⟩ := applyPatches_frame st.patches st
  exact hlen.trans_le hinv.fits

theorem mem_of_labelOffset? {labels : List (List Char × Nat)} {name : List Char} {v : Nat}
    (h : labelOffset? labels name = some v) : ∃ l ∈ labels, l.2 = v := by
  obtain ⟨l, hl, rfl⟩ := Option.map_eq_some_iff.mp h
  exact ⟨l, List.mem_of_find?_eq_some hl, rfl⟩

/-- Settles O57: the invariant of pass 1 puts the patches apart and the labels within the buffer. -/
theorem resolutionFillsEveryReference : Obligations.ResolutionFillsEveryReference := by
  unfold Obligations.ResolutionFillsEveryReference
  intro memsize source bytes h
  obtain ⟨st, hinv, hres, hstate, rfl⟩ := assembleText_eq_ok h
  obtain ⟨hlabels, hpatches, hlen⟩ := applyPatches_frame st.patches st
  rw [hstate]
  dsimp only
  rw [hlabels, hpatches, hlen]
  intro p hp
  obtain ⟨v, hv, hle, hbyte⟩ := applyPatches_fill hinv.patches_lt hinv.patches_rising hres p hp
  obtain ⟨l, hl, rfl⟩ := mem_of_labelOffset? hv
  exact ⟨l.2, hv, hle, hinv.labels_le l hl, hbyte⟩

end Sys2Proof.Machine

/-! ## The listing of a program (48_assembler.md sections 2 and 6)

The text of one instruction is a mnemonic line, so it emits the instruction's encoding; a program's listing is read back
line by line, to its end or to the first line that does not fit. -/

namespace Sys2Proof.Machine

/-! ### The text of an instruction -/

theorem hexDigitChar_facts : ∀ n < 16, hexDigit? (hexDigitChar n) = some n ∧ isAscii (hexDigitChar n) = true ∧
    isBlank (hexDigitChar n) = false ∧ hexDigitChar n ≠ '\n' := by decide

/-- A byte's two digits are below 16. -/
theorem hexText_digits_lt (b : Byte) : b.toNat / 16 < 16 ∧ b.toNat % 16 < 16 := by
  have := b.isLt
  omega

/-- Two hex digits of a byte read back as the byte (30_encoding.md R64, 48_assembler.md R104). -/
theorem operandForm_hexText (b : Byte) : operandForm (hexText b) = .value b := by
  obtain ⟨hhi, hlo⟩ := hexText_digits_lt b
  obtain ⟨hhigh, -⟩ := hexDigitChar_facts _ hhi
  obtain ⟨hlow, -⟩ := hexDigitChar_facts _ hlo
  have hbyte : BitVec.ofNat 8 (16 * (b.toNat / 16) + b.toNat % 16) = b := by simp [Nat.div_add_mod]
  exact operandForm_value (by simp only [hexByte?, hhigh, hlow, hbyte])

theorem asciiWord_hexText (b : Byte) : asciiWord (hexText b) = true := by
  obtain ⟨hhi, hlo⟩ := hexText_digits_lt b
  obtain ⟨-, hascii, hblank, -⟩ := hexDigitChar_facts _ hhi
  obtain ⟨-, hascii', hblank', -⟩ := hexDigitChar_facts _ hlo
  simp [asciiWord, hexText, hascii, hblank, hascii', hblank']

theorem asciiWord_mnemonic (m : Mnemonic) : asciiWord m.text.toList = true := by
  cases m <;> decide

/-- The table's mnemonics are in capitals (30_encoding.md R59). -/
theorem map_toUpper_mnemonic (m : Mnemonic) : m.text.toList.map Char.toUpper = m.text.toList := by
  cases m <;> decide

/-- The operands of an instruction's line: its operand byte, if it has one (30_encoding.md R64). -/
def operandTexts (i : Instr) : List (List Char) := (operandByte? i).toList.map hexText

theorem instrText_eq_lineText (i : Instr) : instrText i = lineText (i.mnemonic.text.toList :: operandTexts i) := by
  unfold instrText operandTexts
  cases operandByte? i <;> rfl

theorem asciiWord_operandTexts {i : Instr} {w : List Char} (h : w ∈ operandTexts i) : asciiWord w = true := by
  obtain ⟨b, -, rfl⟩ := List.mem_map.mp h
  exact asciiWord_hexText b

theorem mnemonic_instr (m : Mnemonic) (x : Byte) : (m.instr x).mnemonic = m := by
  cases m <;> rfl

/-- An instruction's line emits its encoding (48_assembler.md R106). -/
theorem assembleLine_instrText {memsize : Nat} {st : AsmState} (hp : st.phase = .pass1) (i : Instr) :
    assembleLine memsize st (instrText i) = emitAll memsize (encode i) { st with lineNo := st.lineNo + 1 } := by
  obtain ⟨row, hrow, x, rfl⟩ := exists_row_instr i
  rw [instrText_eq_lineText, mnemonic_instr,
    assembleLine_of_mnemonic hp (asciiWord_mnemonic _) (fun _ => asciiWord_operandTexts) hrow (map_toUpper_mnemonic _),
    operandTexts, operandByte?, encode_row hrow]
  cases hasOperand row.opcode with
  | true => simp [assembleFormatI, operandForm_hexText]
  | false => simp [emitAll]

/-! ### The lines of a listing -/

theorem newline_not_mem_instrText (i : Instr) : '\n' ∉ instrText i := by
  have hmnemonic : '\n' ∉ i.mnemonic.text.toList := by cases i.mnemonic <;> decide
  have hhex : ∀ b : Byte, '\n' ∉ hexText b := by
    intro b
    obtain ⟨hhi, hlo⟩ := hexText_digits_lt b
    obtain ⟨-, -, -, hne⟩ := hexDigitChar_facts _ hhi
    obtain ⟨-, -, -, hne'⟩ := hexDigitChar_facts _ hlo
    simp [hexText, hne.symm, hne'.symm]
  unfold instrText
  split
  · exact hmnemonic
  · simp [hmnemonic, hhex]

/-- A line without LF, ended by LF, is the first piece of a text. -/
theorem splitText_line {line : List Char} (h : '\n' ∉ line) (rest : List Char) :
    splitText (· == '\n') (line ++ '\n' :: rest) = line :: splitText (· == '\n') rest := by
  have hline : ∀ c ∈ line, (c == '\n') = false := fun c hc => beq_false_of_ne fun heq => h (heq ▸ hc)
  obtain ⟨v, vs, hv, heq⟩ := splitText_append hline ('\n' :: rest)
  simp only [splitText, beq_self_eq_true, if_true, List.cons.injEq] at hv
  rw [heq, ← hv.1, ← hv.2, List.append_nil]

theorem splitText_listing (program : List Instr) :
    splitText (· == '\n') (listing program) = program.map instrText ++ [[]] := by
  induction program with
  | nil => rfl
  | cons i program ih =>
    have hcons : listing (i :: program) = instrText i ++ '\n' :: listing program := by simp [listing]
    rw [hcons, splitText_line (newline_not_mem_instrText i), ih]
    rfl

/-- The listing's lines are its instructions' texts (48_assembler.md R98). -/
theorem sourceLines_listing (program : List Instr) : sourceLines (listing program) = program.map instrText := by
  simp [sourceLines, splitText_listing]

/-! ### Pass 1 over a listing -/

/-- A pass that has failed stays as it is through the lines left (48_assembler.md R100). -/
theorem assembleLines_of_not_pass1 {memsize : Nat} (lines : List (List Char)) {st : AsmState} (h : st.phase ≠ .pass1) :
    lines.foldl (assembleLine memsize) st = st := by
  induction lines with
  | nil => rfl
  | cons line lines ih =>
    have hline : assembleLine memsize st line = st := inPass1_neg h _
    rw [List.foldl_cons, hline, ih]

theorem assembleLines_listing_of_le {memsize : Nat} {program : List Instr} {st : AsmState} (hp : st.phase = .pass1)
    (h : st.buf.length + (program.flatMap encode).length ≤ memsize) :
    (program.map instrText).foldl (assembleLine memsize) st =
      { st with lineNo := st.lineNo + program.length, buf := st.buf ++ program.flatMap encode } := by
  induction program generalizing st with
  | nil => simp
  | cons i program ih =>
    simp only [List.flatMap_cons, List.length_append] at h
    rw [List.map_cons, List.foldl_cons, assembleLine_instrText hp, emitAll_of_le (by exact hp) (by dsimp only; omega),
      ih (by exact hp) (by simp only [List.length_append]; omega)]
    simp [Nat.add_comm, Nat.add_left_comm]

theorem encode_ne_nil (i : Instr) : encode i ≠ [] := by
  cases i <;> exact List.cons_ne_nil _ _

/-- Pass 1 over a listing that does not fit fails at the line of the first instruction that crosses the limit. -/
theorem assembleLines_listing_of_lt {memsize : Nat} {program : List Instr} {st : AsmState} (hp : st.phase = .pass1)
    (hlen : st.buf.length ≤ memsize) (h : memsize < st.buf.length + (program.flatMap encode).length) :
    ∃ k < program.length, st.buf.length + ((program.take k).flatMap encode).length ≤ memsize ∧
      memsize < st.buf.length + ((program.take (k + 1)).flatMap encode).length ∧
      ((program.map instrText).foldl (assembleLine memsize) st).phase = .failed .programTooLarge (st.lineNo + k + 1) := by
  induction program generalizing st with
  | nil => exact absurd hlen (by simpa using h)
  | cons i program ih =>
    rw [List.map_cons, List.foldl_cons, assembleLine_instrText hp]
    obtain hfit | hfull := le_or_gt (st.buf.length + (encode i).length) memsize
    · rw [emitAll_of_le (by exact hp) (by exact hfit)]
      obtain ⟨k, hk, hle, hlt, hfail⟩ := ih (st := { st with lineNo := st.lineNo + 1, buf := st.buf ++ encode i }) hp
        (by simpa using hfit) (by simpa [Nat.add_assoc] using h)
      refine ⟨k + 1, by simpa using hk, ?_, ?_, ?_⟩
      · simpa [Nat.add_assoc] using hle
      · simpa [Nat.add_assoc] using hlt
      · rw [hfail]
        simp [Nat.add_comm, Nat.add_left_comm]
    · have hfail := emitAll_phase_of_lt (st := { st with lineNo := st.lineNo + 1 }) hp (encode_ne_nil i) hfull
      refine ⟨0, by simp, by simpa using hlen, by simpa using hfull, ?_⟩
      rw [assembleLines_of_not_pass1 _ (by simp [hfail]), hfail]

theorem pass1State_listing (memsize : Nat) (program : List Instr) :
    pass1State memsize (listing program) = (program.map instrText).foldl (assembleLine memsize) AsmState.init := by
  rw [pass1State, sourceLines_listing]

/-- Settles O55: pass 1 over the listing, and a resolution without patches. -/
theorem assembledListingIsTheEncoding : Obligations.AssembledListingIsTheEncoding := by
  unfold Obligations.AssembledListingIsTheEncoding
  intro memsize program
  constructor
  · intro h
    have hpass := assembleLines_listing_of_le (st := AsmState.init) rfl (by simpa [AsmState.init] using h)
    rw [← pass1State_listing] at hpass
    have hstate := assembleState_of_pass1 (memsize := memsize) (source := listing program) (by rw [hpass]; rfl)
    rw [hpass] at hstate
    rw [assembleText_of_done (by rw [hstate]; rfl), hstate]
    rfl
  · intro h
    obtain ⟨k, hk, hle, hlt, hfail⟩ :=
      assembleLines_listing_of_lt (st := AsmState.init) rfl (Nat.zero_le _) (by simpa [AsmState.init] using h)
    rw [← pass1State_listing] at hfail
    refine ⟨k, hk, by simpa [AsmState.init] using hle, by simpa [AsmState.init] using hlt, ?_⟩
    rw [assembleText_of_failed (by rw [assembleState_of_failed hfail, hfail])]
    simp [AsmState.init]

end Sys2Proof.Machine

/-! ## The assembler's directives (48_assembler.md sections 2 and 4)

Where a directive's line begins and ends is settled once for any keyword; what follows it is then the text of `STR`,
piece by piece, or the pairs of `HEX`. -/

namespace Sys2Proof.Machine

/-! ### Hex digits -/

/-- The digits of 92_eei_decisions.md D17. -/
theorem mem_hexDigits_of_hexDigit? {c : Char} {v : Nat} (h : hexDigit? c = some v) :
    c ∈ "0123456789abcdefABCDEF".toList := by
  have hall : ∀ n < 128, (hexDigit? (Char.ofNat n)).isSome → Char.ofNat n ∈ "0123456789abcdefABCDEF".toList := by decide
  have hlt : c.toNat < 128 := by
    have hle : c ≤ 'f' := by
      unfold hexDigit? at h
      split at h
      · next hc => exact hc.2.trans (by decide)
      · split at h
        · next hc => exact hc.2
        · split at h
          · next hc => exact hc.2.trans (by decide)
          · cases h
    have hnat : c.toNat ≤ 'f'.toNat := hle
    exact hnat.trans_lt (by decide)
  simpa using hall c.toNat hlt (by simp [h])

theorem hexDigit?_eq_none {c : Char} (h : c ∉ "0123456789abcdefABCDEF".toList) : hexDigit? c = none :=
  Option.eq_none_iff_forall_ne_some.mpr fun _ hv => h (mem_hexDigits_of_hexDigit? hv)

theorem hexByte?_eq_some_iff {hi lo : Char} {b : Byte} : hexByte? hi lo = some b ↔
    ∃ h l, hexDigit? hi = some h ∧ hexDigit? lo = some l ∧ b = BitVec.ofNat 8 (16 * h + l) := by
  unfold hexByte?
  cases hexDigit? hi <;> cases hexDigit? lo <;> simp [eq_comm]

/-! ### The data of `HEX` -/

theorem hexPairs?_of_pairs {pairs : List (List Char × Byte)}
    (h : ∀ p ∈ pairs, ∃ hi lo, p.1 = [hi, lo] ∧ hexByte? hi lo = some p.2) :
    hexPairs? (pairs.flatMap Prod.fst) = some (pairs.map Prod.snd) := by
  induction pairs with
  | nil => rfl
  | cons p pairs ih =>
    obtain ⟨⟨hi, lo, hpair, hbyte⟩, htail⟩ := List.forall_mem_cons.mp h
    simp [hpair, hexPairs?, hbyte, ih htail]

/-- What reads as pairs is an even number of hex digits (92_eei_decisions.md D19). -/
theorem hexPairs?_eq_some {t : List Char} {bs : List Byte} (h : hexPairs? t = some bs) :
    t.length % 2 = 0 ∧ ∀ c ∈ t, c ∈ "0123456789abcdefABCDEF".toList := by
  induction t using hexPairs?.induct generalizing bs with
  | case1 => simp
  | case2 c => cases h
  | case3 hi lo rest b hb ih =>
    rw [hexPairs?, hb] at h
    obtain ⟨bs', hbs, -⟩ := Option.map_eq_some_iff.mp h
    obtain ⟨heven, hdigits⟩ := ih hbs
    obtain ⟨h, l, hhi, hlo, -⟩ := hexByte?_eq_some_iff.mp hb
    refine ⟨by simp only [List.length_cons]; omega, List.forall_mem_cons.mpr ⟨mem_hexDigits_of_hexDigit? hhi, ?_⟩⟩
    exact List.forall_mem_cons.mpr ⟨mem_hexDigits_of_hexDigit? hlo, hdigits⟩
  | case4 hi lo rest hb =>
    rw [hexPairs?, hb] at h
    cases h

/-! ### The text of `STR` -/

theorem strBytes?_of_pieces {pieces : List (List Char × Byte)} (h : ∀ p ∈ pieces, strPiece p) (bad : List Char) :
    strBytes? (pieces.flatMap Prod.fst ++ bad) = (strBytes? bad).map (pieces.map Prod.snd ++ ·) := by
  induction pieces with
  | nil => simp
  | cons p pieces ih =>
    obtain ⟨hp, htail⟩ := List.forall_mem_cons.mp h
    rw [List.flatMap_cons, List.append_assoc, strBytes_piece hp, ih htail, Option.map_map]
    rfl

/-! ### Where a directive's line begins and ends -/

/-- Upper-casing makes ASCII of nothing else. -/
theorem isAscii_of_isAscii_toUpper {c : Char} (h : isAscii c.toUpper = true) : isAscii c = true := by
  unfold Char.toUpper at h
  split at h
  · next hlower =>
    have hle : c.val.toNat ≤ 122 := UInt32.le_iff_toNat_le.mp hlower.2
    simp only [isAscii, decide_eq_true_eq]
    exact hle.trans_lt (by decide)
  · exact h

/-- Blanks are not letters. -/
theorem isBlank_toUpper_of_isBlank {c : Char} (h : isBlank c = true) : isBlank c.toUpper = true := by
  simp only [isBlank, Bool.or_eq_true, beq_iff_eq] at h
  rcases h with (rfl | rfl) | rfl <;> decide

theorem asciiWord_of_map_toUpper {kw : List Char} (h : asciiWord (kw.map Char.toUpper) = true) :
    asciiWord kw = true := by
  simp only [asciiWord, Bool.and_eq_true, List.all_eq_true, List.forall_mem_map, Bool.not_eq_true'] at h ⊢
  obtain ⟨hne, hall⟩ := h
  refine ⟨by simpa using hne, fun c hc => ?_⟩
  obtain ⟨hascii, hblank⟩ := hall c hc
  refine ⟨isAscii_of_isAscii_toUpper hascii, Bool.eq_false_iff.mpr fun hc => ?_⟩
  simp [isBlank_toUpper_of_isBlank hc] at hblank

section DirectiveLines

variable {kw rest : List Char}

/-- A text that is empty or begins with a blank. -/
def BlankHead (t : List Char) : Prop := ∀ c, t.head? = some c → isBlank c = true

theorem blankHead_of_prefix {t u : List Char} (hu : BlankHead u) (h : t <+: u) : BlankHead t := by
  intro c hc
  cases t with
  | nil => cases hc
  | cons d t =>
    obtain ⟨v, rfl⟩ := h
    exact hu c hc

theorem asciiWord_head_not_blank (hk : asciiWord kw = true) {c : Char} (hc : kw.head? = some c) : isBlank c = false :=
  (asciiWord_mem hk (List.mem_of_mem_head? hc)).2

theorem asciiWord_last_not_blank (hk : asciiWord kw = true) {c : Char} (hc : kw.getLast? = some c) :
    isBlank c = false :=
  (asciiWord_mem hk (List.mem_of_getLast? hc)).2

/-- Nothing is trimmed before a keyword. -/
theorem dropWhile_isBlank_keyword (hk : asciiWord kw = true) (rest : List Char) :
    (kw ++ rest).dropWhile isBlank = kw ++ rest := by
  refine dropWhile_isBlank fun c hc => asciiWord_head_not_blank hk ?_
  rwa [List.head?_append_of_ne_nil _ (asciiWord_ne_nil hk)] at hc

theorem trimText_keyword (hk : asciiWord kw = true) (rest : List Char) :
    trimText (kw ++ rest) = kw ++ rest.rdropWhile isBlank := by
  have hkeep : kw.reverse.dropWhile isBlank = kw.reverse :=
    dropWhile_isBlank fun c hc => asciiWord_last_not_blank hk (List.head?_reverse ▸ hc)
  rw [trimText, dropWhile_isBlank_keyword hk, List.reverse_append, List.dropWhile_append, hkeep, List.rdropWhile]
  split
  · next hnil => simp [List.isEmpty_iff.mp hnil]
  · simp

theorem firstWord_keyword (hk : asciiWord kw = true) (hr : BlankHead rest) : firstWord (kw ++ rest) = kw := by
  have hpos : ∀ c ∈ kw, (!isBlank c) = true := fun c hc => by simp [(asciiWord_mem hk hc).2]
  rw [firstWord, List.takeWhile_append_of_pos hpos]
  cases rest with
  | nil => simp
  | cons c rest => simp [hr c rfl]

theorem afterFirstWord_keyword (hk : asciiWord kw = true) (hr : BlankHead rest) :
    afterFirstWord (kw ++ rest) = rest.dropWhile isBlank := by
  have hpos : ∀ c ∈ kw, (!isBlank c) = true := fun c hc => by simp [(asciiWord_mem hk hc).2]
  rw [afterFirstWord, List.dropWhile_append_of_pos hpos]
  cases rest with
  | nil => rfl
  | cons c rest => simp [hr c rfl]

/-- What a keyword's line is trimmed to, and its two parts (48_assembler.md R102). -/
theorem trimText_parts (hk : asciiWord kw = true) (hr : BlankHead rest) :
    firstWord (trimText (kw ++ rest)) = kw ∧
      afterFirstWord (trimText (kw ++ rest)) = (rest.rdropWhile isBlank).dropWhile isBlank := by
  have hr' : BlankHead (rest.rdropWhile isBlank) := blankHead_of_prefix hr (List.rdropWhile_prefix _ _)
  rw [trimText_keyword hk]
  exact ⟨firstWord_keyword hk hr', afterFirstWord_keyword hk hr'⟩

/-- A line that a keyword other than a comment's begins is neither blank nor a comment (48_assembler.md R102). -/
theorem trimText_not_ignored (hk : asciiWord kw = true) (hhead : kw.head? ≠ some '#') (rest : List Char) :
    trimText (kw ++ rest) ≠ [] ∧ (trimText (kw ++ rest)).head? ≠ some '#' := by
  have hne := asciiWord_ne_nil hk
  rw [trimText_keyword hk, List.head?_append_of_ne_nil _ hne]
  exact ⟨by simp [hne], hhead⟩

/-- A word that upper-cases to a keyword is a word, and begins no comment. -/
theorem keyword_of_map_toUpper {text : List Char} (htext : asciiWord text = true) (hhead : text.head? ≠ some '#')
    (h : kw.map Char.toUpper = text) : asciiWord kw = true ∧ kw.head? ≠ some '#' := by
  subst h
  exact ⟨asciiWord_of_map_toUpper htext, fun hkw => hhead (by rw [List.head?_map, hkw]; rfl)⟩

theorem classify_str (hkw : kw.map Char.toUpper = "STR".toList) (hr : BlankHead rest) :
    classify (kw ++ rest) = .str (strText (kw ++ rest) kw) := by
  obtain ⟨hk, hhead⟩ := keyword_of_map_toUpper (by decide) (by decide) hkw
  obtain ⟨hne, hcomment⟩ := trimText_not_ignored hk hhead rest
  obtain ⟨hfirst, -⟩ := trimText_parts hk hr
  have hupper := (upperText_ascii fun c hc => (asciiWord_mem hk hc).1).trans hkw
  simp only [classify, hfirst, hupper, hne, hcomment, if_false, if_true]

theorem classify_hex (hkw : kw.map Char.toUpper = "HEX".toList) (hr : BlankHead rest) :
    classify (kw ++ rest) = .hex ((rest.rdropWhile isBlank).dropWhile isBlank) := by
  obtain ⟨hk, hhead⟩ := keyword_of_map_toUpper (by decide) (by decide) hkw
  obtain ⟨hne, hcomment⟩ := trimText_not_ignored hk hhead rest
  obtain ⟨hfirst, hafter⟩ := trimText_parts hk hr
  have hupper := (upperText_ascii fun c hc => (asciiWord_mem hk hc).1).trans hkw
  simp only [classify, hfirst, hafter, hupper, hne, hcomment, if_false, if_true]
  rw [if_neg (by decide)]

/-- The text of a `STR` line begins after the one space or tab that follows the keyword (92_eei_decisions.md D18). -/
theorem strText_keyword (hk : asciiWord kw = true) {sep : Char} (hsep : sep = ' ' ∨ sep = '\t') (text : List Char) :
    strText (kw ++ sep :: text) kw = text := by
  simp [strText, dropWhile_isBlank_keyword hk, hsep]

theorem strText_keyword_alone (hk : asciiWord kw = true) : strText kw kw = [] := by
  have hline : kw.dropWhile isBlank = kw := by simpa using dropWhile_isBlank_keyword hk []
  simp [strText, hline]

/-! ### The final CR -/

theorem dropFinalCr_of_last_ne {line : List Char} (h : line.getLast? ≠ some '\r') : dropFinalCr line = line := if_neg h

theorem dropFinalCr_append_cr (line : List Char) : dropFinalCr (line ++ ['\r']) = line := by
  simp [dropFinalCr]

/-- After a keyword only the rest of the line can lose a CR. -/
theorem dropFinalCr_keyword (hk : asciiWord kw = true) (rest : List Char) :
    dropFinalCr (kw ++ rest) = kw ++ dropFinalCr rest := by
  obtain rfl | ⟨init, c, rfl⟩ := rest.eq_nil_or_concat'
  · have hlast : kw.getLast? ≠ some '\r' := fun h => by simpa [isBlank] using asciiWord_last_not_blank hk h
    simpa [dropFinalCr] using dropFinalCr_of_last_ne hlast
  · by_cases hc : c = '\r'
    · subst hc
      rw [dropFinalCr_append_cr, ← List.append_assoc, dropFinalCr_append_cr]
    · rw [dropFinalCr_of_last_ne (by simp [hc]), dropFinalCr_of_last_ne (by simp [hc])]

theorem dropFinalCr_prefix (line : List Char) : dropFinalCr line <+: line := by
  unfold dropFinalCr
  split
  · exact List.dropLast_prefix line
  · exact List.prefix_refl line

/-! ### What is not blank -/

/-- The characters of a text that are not blank. -/
def solid (t : List Char) : List Char := t.filter fun c => !isBlank c

theorem solid_dropWhile (t : List Char) : solid (t.dropWhile isBlank) = solid t := by
  induction t with
  | nil => rfl
  | cons c t ih => cases hc : isBlank c <;> simp_all [solid]

theorem solid_rdropWhile (t : List Char) : solid (t.rdropWhile isBlank) = solid t := by
  have h := solid_dropWhile t.reverse
  unfold solid at h ⊢
  rw [List.rdropWhile, List.filter_reverse, h, List.filter_reverse, List.reverse_reverse]

theorem solid_dropFinalCr (t : List Char) : solid (dropFinalCr t) = solid t := by
  obtain rfl | ⟨init, c, rfl⟩ := t.eq_nil_or_concat'
  · rfl
  · by_cases hc : c = '\r'
    · subst hc
      rw [dropFinalCr_append_cr]
      simp [solid, isBlank]
    · rw [dropFinalCr_of_last_ne (by simp [hc])]

/-! ### The two directives' lines -/

variable {memsize : Nat} {st : AsmState}

/-- In pass 1 a line takes the effect of its form (48_assembler.md R100). -/
theorem assembleLine_of_classify {line : List Char} {form : LineForm} (hp : st.phase = .pass1)
    (h : classify (dropFinalCr line) = form) :
    assembleLine memsize st line = assembleForm memsize form { st with lineNo := st.lineNo + 1 } := by
  rw [assembleLine, inPass1_pos hp, h]

theorem assembleForm_str_of_some {text : List Char} {bs : List Byte} (h : strBytes? text = some bs) (st : AsmState) :
    assembleForm memsize (.str text) st = emitAll memsize (bs ++ [0]) st := by
  simp [assembleForm, h]

theorem assembleForm_hex_of_some {text : List Char} {bs : List Byte} (h : hexPairs? (solid text) = some bs)
    (st : AsmState) : assembleForm memsize (.hex text) st = emitAll memsize bs st := by
  unfold solid at h
  simp [assembleForm, h]

theorem assembleLine_str_alone (hp : st.phase = .pass1) (hkw : kw.map Char.toUpper = "STR".toList) :
    assembleLine memsize st kw = emitAll memsize [0] { st with lineNo := st.lineNo + 1 } := by
  obtain ⟨hk, -⟩ := keyword_of_map_toUpper (by decide) (by decide) hkw
  have hline : dropFinalCr kw = kw := by simpa [dropFinalCr] using dropFinalCr_keyword hk []
  have hform : classify (dropFinalCr kw) = .str [] := by
    have h := classify_str (rest := []) hkw nofun
    rwa [List.append_nil, strText_keyword_alone hk, ← hline] at h
  rw [assembleLine_of_classify hp hform, assembleForm_str_of_some (bs := []) rfl]
  rfl

/-- A line of `STR` with a text, and with or without a CR at its end (48_assembler.md R98, R103). -/
theorem assembleLine_str (hp : st.phase = .pass1) (hkw : kw.map Char.toUpper = "STR".toList) {sep : Char}
    (hsep : sep = ' ' ∨ sep = '\t') {text eol : List Char} (heol : eol = [] ∨ eol = ['\r'])
    (hlast : text.getLast? ≠ some '\r') :
    assembleLine memsize st (kw ++ sep :: text ++ eol) =
      assembleForm memsize (.str text) { st with lineNo := st.lineNo + 1 } := by
  obtain ⟨hk, -⟩ := keyword_of_map_toUpper (by decide) (by decide) hkw
  have hline : dropFinalCr (kw ++ sep :: text ++ eol) = kw ++ sep :: text := by
    rcases heol with rfl | rfl
    · refine (congrArg dropFinalCr (List.append_nil _)).trans (dropFinalCr_of_last_ne fun h => ?_)
      rw [List.getLast?_append_of_ne_nil _ (List.cons_ne_nil _ _)] at h
      cases text with
      | nil => rcases hsep with rfl | rfl <;> simp at h
      | cons c text => exact hlast (by rwa [List.getLast?_cons_cons] at h)
    · exact dropFinalCr_append_cr _
  have hblank : BlankHead (sep :: text) := by
    rintro c ⟨⟩
    rcases hsep with rfl | rfl <;> rfl
  refine assembleLine_of_classify hp ?_
  rw [hline, classify_str hkw hblank, strText_keyword hk hsep]

/-- A line of `HEX`: of the rest of the line only what is not blank matters (48_assembler.md R104). -/
theorem assembleLine_hex (hp : st.phase = .pass1) (hkw : kw.map Char.toUpper = "HEX".toList) (hr : BlankHead rest) :
    ∃ text, solid text = solid rest ∧ assembleLine memsize st (kw ++ rest) =
      assembleForm memsize (.hex text) { st with lineNo := st.lineNo + 1 } := by
  obtain ⟨hk, -⟩ := keyword_of_map_toUpper (by decide) (by decide) hkw
  refine ⟨((dropFinalCr rest).rdropWhile isBlank).dropWhile isBlank, ?_, assembleLine_of_classify hp ?_⟩
  · rw [solid_dropWhile, solid_rdropWhile, solid_dropFinalCr]
  · rw [dropFinalCr_keyword hk, classify_hex hkw (blankHead_of_prefix hr (dropFinalCr_prefix rest))]

/-- An odd number of digits or another character makes no pairs (92_eei_decisions.md D19). -/
theorem hexPairs?_eq_none (h : (solid rest).length % 2 = 1 ∨
    ∃ c ∈ rest, isBlank c = false ∧ c ∉ "0123456789abcdefABCDEF".toList) : hexPairs? (solid rest) = none := by
  rw [Option.eq_none_iff_forall_ne_some]
  intro bs hbs
  obtain ⟨heven, hdigits⟩ := hexPairs?_eq_some hbs
  rcases h with hodd | ⟨c, hc, hblank, hdigit⟩
  · omega
  · exact hdigit (hdigits c (List.mem_filter.mpr ⟨hc, by simp [hblank]⟩))

end DirectiveLines

/-- Settles O60: the digits, the text of `STR` after its keyword, and the solid characters of `HEX`. -/
theorem directivesEmitTheirData : Obligations.DirectivesEmitTheirData := by
  unfold Obligations.DirectivesEmitTheirData
  refine ⟨⟨by decide, by decide, fun c => hexDigit?_eq_none, ?byte⟩, ?str, ?hex⟩
  case byte =>
    intro hi lo h l hhi hlo
    exact hexByte?_eq_some_iff.mpr ⟨h, l, hhi, hlo, rfl⟩
  case str =>
    intro memsize st kw hp hkw
    have hp' : ({ st with lineNo := st.lineNo + 1 } : AsmState).phase = .pass1 := hp
    constructor
    · intro hfit
      rw [assembleLine_str_alone hp hkw]
      exact emitAll_of_le hp' hfit
    · intro pieces bad sep eol hpieces hsep heol hlast
      have hbytes := strBytes?_of_pieces hpieces bad
      rw [assembleLine_str hp hkw hsep heol hlast]
      refine ⟨?fits, ?tooLarge, ?malformed⟩
      case fits =>
        rintro rfl hfit
        rw [assembleForm_str_of_some hbytes, emitAll_of_le hp' (by simpa [Nat.add_assoc] using hfit)]
        simp
      case tooLarge =>
        rintro rfl - hfull
        rw [assembleForm_str_of_some hbytes]
        exact emitAll_phase_of_lt hp' (by simp) (by simpa [Nat.add_assoc] using hfull)
      case malformed =>
        intro hbad
        rw [strBytes_bad hbad] at hbytes
        simp only [assembleForm, hbytes, Option.map_none]
        rfl
  case hex =>
    intro memsize st kw rest hp hkw hr
    have hp' : ({ st with lineNo := st.lineNo + 1 } : AsmState).phase = .pass1 := hp
    obtain ⟨text, hsolid, hline⟩ := assembleLine_hex (memsize := memsize) hp hkw hr
    rw [hline]
    constructor
    · intro pairs hpairs hrest
      have hbytes : hexPairs? (solid text) = some (pairs.map Prod.snd) := by
        rw [hsolid, solid, hrest]
        exact hexPairs?_of_pairs hpairs
      rw [assembleForm_hex_of_some hbytes]
      constructor
      · exact fun hfit => emitAll_of_le hp' (by simpa using hfit)
      · intro hlen hfull
        have hne : pairs ≠ [] := by
          rintro rfl
          exact absurd hlen (not_le.mpr (by simpa using hfull))
        exact emitAll_phase_of_lt hp' (by simpa using hne) (by simpa using hfull)
    · intro hbad
      have hnone : hexPairs? (solid text) = none := hsolid ▸ hexPairs?_eq_none hbad
      unfold solid at hnone
      simp only [assembleForm, hnone]
      rfl

end Sys2Proof.Machine
